-- ==== Sys2Proof/Word.lean ====
section
/-! DEFINITION. The machine's bit-vector types (00_scope.md R6, R8): everything the spec treats as bits has one of these
widths. All values are unsigned and nothing is ever sign-extended. -/

namespace Sys2Proof

/-- A general register, a RAM location, a timer, an immediate `kk`: 8 bits. -/
abbrev Byte := BitVec 8

/-- A register index, a key id, a sprite height `n`: one 4-bit field of an opcode (R91). -/
abbrev Nibble := BitVec 4

/-- The address field `nnn`: the low 12 bits of an opcode (R91). -/
abbrev Addr := BitVec 12

/-- An opcode, the program counter, the address register I, a stack slot: 16 bits (R6). -/
abbrev Word := BitVec 16

end Sys2Proof
end

