-- ==== Sys2Proof/Syntax.lean ====
section
/-! DEFINITION. The instructions (30_encoding.md R96, R106): one constructor per row of the opcode table, carrying only
the operands it needs, and what the decoder can answer besides an instruction. -/

namespace Sys2Proof

/-- The 34 instructions of R96, in the table's order and under the spec's variant names. Every field is as wide as the
opcode field it comes from (R91), so no value of this type has an operand out of range. The shifts carry `x` only: `y`
is ignored by the operation (R106). -/
inductive Instr where
  | clearDisplay
  | returnFromSubroutine
  | jump (nnn : Addr)
  | call (nnn : Addr)
  | skipEqImm (x : Nibble) (kk : Byte)
  | skipNeqImm (x : Nibble) (kk : Byte)
  | skipEqReg (x y : Nibble)
  | loadImm (x : Nibble) (kk : Byte)
  | addImm (x : Nibble) (kk : Byte)
  | move (x y : Nibble)
  | or (x y : Nibble)
  | and (x y : Nibble)
  | xor (x y : Nibble)
  | addWithCarry (x y : Nibble)
  | subtract (x y : Nibble)
  | shiftRight (x : Nibble)
  | subtractReversed (x y : Nibble)
  | shiftLeft (x : Nibble)
  | skipNeqReg (x y : Nibble)
  | loadIndex (nnn : Addr)
  | jumpOffset (nnn : Addr)
  | random (x : Nibble) (kk : Byte)
  | draw (x y : Nibble) (n : Nibble)
  | skipKeyPressed (x : Nibble)
  | skipKeyNotPressed (x : Nibble)
  | readDelay (x : Nibble)
  | waitKey (x : Nibble)
  | setDelay (x : Nibble)
  | setSound (x : Nibble)
  | addIndex (x : Nibble)
  | loadFont (x : Nibble)
  | storeBcd (x : Nibble)
  | storeRegs (x : Nibble)
  | loadRegs (x : Nibble)
  deriving DecidableEq, Repr

/-- The decoder's answer (R94, R106): an instruction, or the invalid sentinel carrying the original bits. -/
inductive Decoded where
  | valid (i : Instr)
  | invalidInstruction (op : Word)
  deriving DecidableEq, Repr

/-- Why a byte sequence begins with no instruction: it is shorter than an instruction, or its first opcode is invalid. -/
inductive DecodeReject where
  | truncated
  | invalidInstruction (op : Word)
  deriving DecidableEq, Repr

end Sys2Proof
end

