-- ==== Sys2Proof/Decode.lean ====
section
/-! DEFINITION. The decoder and the encoder, written from 30_encoding.md R90 to R99. -/

namespace Sys2Proof

/-- Bits 15:12, the dispatch key (R91). -/
def opTop (op : Word) : Nibble := op.extractLsb' 12 4

/-- Bits 11:8, the index of the first register operand (R91). -/
def opX (op : Word) : Nibble := op.extractLsb' 8 4

/-- Bits 7:4, the index of the second register operand (R91). -/
def opY (op : Word) : Nibble := op.extractLsb' 4 4

/-- Bits 3:0, the sprite height, or the discriminant of family 8 (R91). -/
def opN (op : Word) : Nibble := op.extractLsb' 0 4

/-- Bits 7:0, the immediate byte, or the discriminant of families E and F (R91). -/
def opKK (op : Word) : Byte := op.extractLsb' 0 8

/-- Bits 11:0, the address (R91). -/
def opNNN (op : Word) : Addr := op.extractLsb' 0 12

/-- Family 0 is matched on the full opcode (R95); all else in it is invalid (R99 (a)). -/
def decodeFamily0 (op : Word) : Decoded :=
  if op = 0x00E0#16 then .valid .clearDisplay
  else if op = 0x00EE#16 then .valid .returnFromSubroutine
  else .invalidInstruction op

/-- Family 8 is selected by the low nibble (R95); the seven others are invalid (R99 (b)). -/
def decodeFamily8 (op : Word) : Decoded :=
  match opN op with
  | 0x0#4 => .valid (.move (opX op) (opY op))
  | 0x1#4 => .valid (.or (opX op) (opY op))
  | 0x2#4 => .valid (.and (opX op) (opY op))
  | 0x3#4 => .valid (.xor (opX op) (opY op))
  | 0x4#4 => .valid (.addWithCarry (opX op) (opY op))
  | 0x5#4 => .valid (.subtract (opX op) (opY op))
  | 0x6#4 => .valid (.shiftRight (opX op))
  | 0x7#4 => .valid (.subtractReversed (opX op) (opY op))
  | 0xE#4 => .valid (.shiftLeft (opX op))
  | _ => .invalidInstruction op

/-- Family E is selected by the low byte (R95, R99 (c)). -/
def decodeFamilyE (op : Word) : Decoded :=
  match opKK op with
  | 0x9E#8 => .valid (.skipKeyPressed (opX op))
  | 0xA1#8 => .valid (.skipKeyNotPressed (opX op))
  | _ => .invalidInstruction op

/-- Family F is selected by the low byte (R95, R99 (d)). -/
def decodeFamilyF (op : Word) : Decoded :=
  match opKK op with
  | 0x07#8 => .valid (.readDelay (opX op))
  | 0x0A#8 => .valid (.waitKey (opX op))
  | 0x15#8 => .valid (.setDelay (opX op))
  | 0x18#8 => .valid (.setSound (opX op))
  | 0x1E#8 => .valid (.addIndex (opX op))
  | 0x29#8 => .valid (.loadFont (opX op))
  | 0x33#8 => .valid (.storeBcd (opX op))
  | 0x55#8 => .valid (.storeRegs (opX op))
  | 0x65#8 => .valid (.loadRegs (opX op))
  | _ => .invalidInstruction op

/-- `decode` of R94: total, reads no state. It dispatches on the top four bits, then in families 0, 8, E and F on the
family's discriminant. Families 5 and 9 have none, so their low nibble is ignored (R98). -/
def decode (op : Word) : Decoded :=
  match opTop op with
  | 0x0#4 => decodeFamily0 op
  | 0x1#4 => .valid (.jump (opNNN op))
  | 0x2#4 => .valid (.call (opNNN op))
  | 0x3#4 => .valid (.skipEqImm (opX op) (opKK op))
  | 0x4#4 => .valid (.skipNeqImm (opX op) (opKK op))
  | 0x5#4 => .valid (.skipEqReg (opX op) (opY op))
  | 0x6#4 => .valid (.loadImm (opX op) (opKK op))
  | 0x7#4 => .valid (.addImm (opX op) (opKK op))
  | 0x8#4 => decodeFamily8 op
  | 0x9#4 => .valid (.skipNeqReg (opX op) (opY op))
  | 0xA#4 => .valid (.loadIndex (opNNN op))
  | 0xB#4 => .valid (.jumpOffset (opNNN op))
  | 0xC#4 => .valid (.random (opX op) (opKK op))
  | 0xD#4 => .valid (.draw (opX op) (opY op) (opN op))
  | 0xE#4 => decodeFamilyE op
  | _ => decodeFamilyF op

/-- The opcode of two bytes in the order they stand in RAM: big-endian, the first byte holds bits 15:8 (20_memory.md
R62). -/
def opcodeOf (hi lo : Byte) : Word := hi ++ lo

/-- The byte that stands first in RAM: bits 15:8 (R62). -/
def opcodeHi (op : Word) : Byte := op.extractLsb' 8 8

/-- The byte that stands second in RAM: bits 7:0 (R62). -/
def opcodeLo (op : Word) : Byte := op.extractLsb' 0 8

/-- The decoder on a byte sequence: the first instruction and the bytes after it, or a named reason why there is none. -/
def decodeBytes : List Byte → Except DecodeReject (Instr × List Byte)
  | hi :: lo :: rest =>
    match decode (opcodeOf hi lo) with
    | .valid i => .ok (i, rest)
    | .invalidInstruction op => .error (.invalidInstruction op)
  | _ => .error .truncated

/-- The opcode whose bits are `w`, as the opcode table numbers them; every bit from `nbits` on is 0. -/
def tableOpcode (nbits w : Nat) : Word := BitVec.ofNat 16 (w % 2 ^ nbits)

/-- The instruction the decoder reads from the opcode whose table bits are `w`, laid out as RAM holds it. -/
def decodeTableWord (nbits w : Nat) : Option Instr :=
  let op := tableOpcode nbits w
  match decodeBytes [opcodeHi op, opcodeLo op] with
  | .ok (i, _) => some i
  | .error _ => none

/-- Format `NNN` (R92): the key and an address. -/
def formatNNN (top : Nibble) (nnn : Addr) : Word := top ++ nnn

/-- Formats `XKK` and `XSUB` (R92): the key, a register, a byte (an immediate, or the discriminant). -/
def formatXKK (top x : Nibble) (kk : Byte) : Word := (top ++ x) ++ kk

/-- Formats `XY` and `XYN` (R92): the key, two registers, a nibble (a discriminant, an ignored nibble, or a height). -/
def formatXYN (top x y n : Nibble) : Word := ((top ++ x) ++ y) ++ n

/-- The opcode of an instruction, by its pattern in R96. Digits the decoder ignores are 0 (R98; the `y` of the shifts). -/
def Instr.encode : Instr → Word
  | .clearDisplay => 0x00E0#16
  | .returnFromSubroutine => 0x00EE#16
  | .jump nnn => formatNNN 0x1#4 nnn
  | .call nnn => formatNNN 0x2#4 nnn
  | .skipEqImm x kk => formatXKK 0x3#4 x kk
  | .skipNeqImm x kk => formatXKK 0x4#4 x kk
  | .skipEqReg x y => formatXYN 0x5#4 x y 0x0#4
  | .loadImm x kk => formatXKK 0x6#4 x kk
  | .addImm x kk => formatXKK 0x7#4 x kk
  | .move x y => formatXYN 0x8#4 x y 0x0#4
  | .or x y => formatXYN 0x8#4 x y 0x1#4
  | .and x y => formatXYN 0x8#4 x y 0x2#4
  | .xor x y => formatXYN 0x8#4 x y 0x3#4
  | .addWithCarry x y => formatXYN 0x8#4 x y 0x4#4
  | .subtract x y => formatXYN 0x8#4 x y 0x5#4
  | .shiftRight x => formatXYN 0x8#4 x 0x0#4 0x6#4
  | .subtractReversed x y => formatXYN 0x8#4 x y 0x7#4
  | .shiftLeft x => formatXYN 0x8#4 x 0x0#4 0xE#4
  | .skipNeqReg x y => formatXYN 0x9#4 x y 0x0#4
  | .loadIndex nnn => formatNNN 0xA#4 nnn
  | .jumpOffset nnn => formatNNN 0xB#4 nnn
  | .random x kk => formatXKK 0xC#4 x kk
  | .draw x y n => formatXYN 0xD#4 x y n
  | .skipKeyPressed x => formatXKK 0xE#4 x 0x9E#8
  | .skipKeyNotPressed x => formatXKK 0xE#4 x 0xA1#8
  | .readDelay x => formatXKK 0xF#4 x 0x07#8
  | .waitKey x => formatXKK 0xF#4 x 0x0A#8
  | .setDelay x => formatXKK 0xF#4 x 0x15#8
  | .setSound x => formatXKK 0xF#4 x 0x18#8
  | .addIndex x => formatXKK 0xF#4 x 0x1E#8
  | .loadFont x => formatXKK 0xF#4 x 0x29#8
  | .storeBcd x => formatXKK 0xF#4 x 0x33#8
  | .storeRegs x => formatXKK 0xF#4 x 0x55#8
  | .loadRegs x => formatXKK 0xF#4 x 0x65#8

/-- A row of the opcode map R96 as numbers: an opcode belongs to the row when its bits under `mask` are `bits`; the
bits under `ignored` are neither operand nor discriminant. The decoder does not use these rows: they are a second
reading of the map, for statements to hold the decoder against. -/
structure OpcodeRow where
  bits : Word
  mask : Word
  ignored : Word
  deriving DecidableEq, Repr

/-- The row of R96 an instruction belongs to: its columns match and mask, and the digits marked as ignored. -/
def Instr.row : Instr → OpcodeRow
  | .clearDisplay => ⟨0x00E0, 0xFFFF, 0⟩
  | .returnFromSubroutine => ⟨0x00EE, 0xFFFF, 0⟩
  | .jump _ => ⟨0x1000, 0xF000, 0⟩
  | .call _ => ⟨0x2000, 0xF000, 0⟩
  | .skipEqImm _ _ => ⟨0x3000, 0xF000, 0⟩
  | .skipNeqImm _ _ => ⟨0x4000, 0xF000, 0⟩
  | .skipEqReg _ _ => ⟨0x5000, 0xF000, 0x000F⟩
  | .loadImm _ _ => ⟨0x6000, 0xF000, 0⟩
  | .addImm _ _ => ⟨0x7000, 0xF000, 0⟩
  | .move _ _ => ⟨0x8000, 0xF00F, 0⟩
  | .or _ _ => ⟨0x8001, 0xF00F, 0⟩
  | .and _ _ => ⟨0x8002, 0xF00F, 0⟩
  | .xor _ _ => ⟨0x8003, 0xF00F, 0⟩
  | .addWithCarry _ _ => ⟨0x8004, 0xF00F, 0⟩
  | .subtract _ _ => ⟨0x8005, 0xF00F, 0⟩
  | .shiftRight _ => ⟨0x8006, 0xF00F, 0x00F0⟩
  | .subtractReversed _ _ => ⟨0x8007, 0xF00F, 0⟩
  | .shiftLeft _ => ⟨0x800E, 0xF00F, 0x00F0⟩
  | .skipNeqReg _ _ => ⟨0x9000, 0xF000, 0x000F⟩
  | .loadIndex _ => ⟨0xA000, 0xF000, 0⟩
  | .jumpOffset _ => ⟨0xB000, 0xF000, 0⟩
  | .random _ _ => ⟨0xC000, 0xF000, 0⟩
  | .draw _ _ _ => ⟨0xD000, 0xF000, 0⟩
  | .skipKeyPressed _ => ⟨0xE09E, 0xF0FF, 0⟩
  | .skipKeyNotPressed _ => ⟨0xE0A1, 0xF0FF, 0⟩
  | .readDelay _ => ⟨0xF007, 0xF0FF, 0⟩
  | .waitKey _ => ⟨0xF00A, 0xF0FF, 0⟩
  | .setDelay _ => ⟨0xF015, 0xF0FF, 0⟩
  | .setSound _ => ⟨0xF018, 0xF0FF, 0⟩
  | .addIndex _ => ⟨0xF01E, 0xF0FF, 0⟩
  | .loadFont _ => ⟨0xF029, 0xF0FF, 0⟩
  | .storeBcd _ => ⟨0xF033, 0xF0FF, 0⟩
  | .storeRegs _ => ⟨0xF055, 0xF0FF, 0⟩
  | .loadRegs _ => ⟨0xF065, 0xF0FF, 0⟩

/-- The 34 rows of R96, in the table's order. -/
def opcodeTable : List OpcodeRow :=
  ([.clearDisplay, .returnFromSubroutine, .jump 0, .call 0, .skipEqImm 0 0, .skipNeqImm 0 0, .skipEqReg 0 0,
    .loadImm 0 0, .addImm 0 0, .move 0 0, .or 0 0, .and 0 0, .xor 0 0] ++
   [.addWithCarry 0 0, .subtract 0 0, .shiftRight 0, .subtractReversed 0 0, .shiftLeft 0, .skipNeqReg 0 0,
    .loadIndex 0, .jumpOffset 0, .random 0 0, .draw 0 0 0, .skipKeyPressed 0, .skipKeyNotPressed 0] ++
   [.readDelay 0, .waitKey 0, .setDelay 0, .setSound 0, .addIndex 0, .loadFont 0, .storeBcd 0, .storeRegs 0,
    .loadRegs 0] : List Instr).map Instr.row

end Sys2Proof
end

