-- ==== Sys2Proof/Config.lean ====
section
/-! DEFINITION. What an implementation fixes (00_scope.md R6, 10_state.md R35) and the free values of the model
(00_scope.md R14). The configuration is plain data that the state carries unchanged, so that a statement about every
state is a statement about every configuration (R7). -/

namespace Sys2Proof

/-- `RAM_SIZE` (R6, R27): addresses 0x000 to 0xFFF. DESIGN CHOICE of the spec (D1), notes/assumptions/18. -/
abbrev ramSize : Nat := 4096

/-- `PROG_BASE` (R6): where the image is loaded, the first pc, and `PC_MIN`. -/
abbrev progBase : Nat := 0x200

/-- `PC_MAX` (R6, R123): the greatest address an instruction can be fetched from. -/
abbrev pcMax : Nat := 0xFFE

/-- The greatest length of a program image (R281). -/
abbrev imageMax : Nat := ramSize - progBase

/-- `FONT_GLYPH_BYTES` (R6): the bytes of one font glyph, and so the stride of `LD F, Vx` (R216). -/
abbrev glyphBytes : Nat := 5

/-- The length of the font: sixteen glyphs (R220). -/
abbrev fontLength : Nat := 16 * glyphBytes

/-- `INVALID_POLICY` (R6, R235): what an invalid opcode does. Fixed at reset. -/
inductive InvalidPolicy where
  | skip
  | fatal
  deriving DecidableEq, Repr

/-- The configuration reset takes (R35, R271, R280), and the font the spec asks a model to take as configuration
(R220). No instruction reads or changes it but through the widths, the policy and the font address. -/
structure Config where
  /-- `FB_W`, the columns of the framebuffer, at least 1. -/
  fbW : Nat
  /-- `FB_H`, the rows of the framebuffer, at least 1. -/
  fbH : Nat
  /-- `INVALID_POLICY`. -/
  invalidPolicy : InvalidPolicy
  /-- `FONT_BASE`, the address of the built-in digit font. -/
  fontBase : Nat
  /-- The font's bytes, glyph after glyph. -/
  font : List Byte
  deriving DecidableEq, Repr

/-- The conventional font, one line a pair of digits (R220). PRESUMED: the spec marks every byte as general knowledge
(D17, G5), notes/assumptions/17. -/
def conventionalFont : List Byte :=
  [0xF0, 0x90, 0x90, 0x90, 0xF0, 0x20, 0x60, 0x20, 0x20, 0x70] ++
  [0xF0, 0x10, 0xF0, 0x80, 0xF0, 0xF0, 0x10, 0xF0, 0x10, 0xF0] ++
  [0x90, 0x90, 0xF0, 0x10, 0x10, 0xF0, 0x80, 0xF0, 0x10, 0xF0] ++
  [0xF0, 0x80, 0xF0, 0x90, 0xF0, 0xF0, 0x10, 0x20, 0x40, 0x40] ++
  [0xF0, 0x90, 0xF0, 0x90, 0xF0, 0xF0, 0x90, 0xF0, 0x10, 0xF0] ++
  [0xF0, 0x90, 0xF0, 0x90, 0x90, 0xE0, 0x90, 0xE0, 0x90, 0xE0] ++
  [0xF0, 0x80, 0x80, 0x80, 0xF0, 0xE0, 0x90, 0x90, 0x90, 0xE0] ++
  [0xF0, 0x80, 0xF0, 0x80, 0xF0, 0xF0, 0x80, 0xF0, 0x80, 0x80]

/-- The configuration of `State.reset`: the reference grid, the default policy and the conventional font. DESIGN
CHOICE: the grid's size is open in the spec (D14); notes/assumptions/2. No statement rests on it but the one about the
state after reset. -/
def Config.reference : Config :=
  { fbW := 80, fbH := 64, invalidPolicy := .skip, fontBase := 0x000, font := conventionalFont }

/-- The byte drawn by the n-th draw (R14, R181): a FREE VALUE, nothing constrains it. notes/assumptions/9. -/
opaque Config.drawByte : Nat → Byte

/-- The choice made by the n-th draw among several pressed keys (R14, R198): a FREE VALUE, taken modulo the number of
keys to choose from. notes/assumptions/10. -/
opaque Config.drawKey : Nat → Nat

end Sys2Proof
end

