-- ==== Sys2Proof/Machine/State.lean ====
section
/-! DEFINITION. The machine's state as plain data, and the state after reset (10_state.md R20 to R41). -/

namespace Sys2Proof.Machine

/-- RAM (R27) as the list of the addresses whose byte differs from the reset contents, addresses strictly rising. What
an unlisted address reads as is `resetByte`. notes/assumptions/4. -/
abbrev Memory := List Host.Cell

/-- The framebuffer (R30) as the list of the lit cells, strictly rising; cell (x, y) has the number y * FB_W + x.
notes/assumptions/14. -/
abbrev Framebuffer := List Nat

/-- One slot of the keypad (R31). -/
inductive KeyState where
  | released
  | pressed
  deriving DecidableEq, Repr

/-- RUN (R32). -/
inductive RunState where
  | running
  | halted
  deriving DecidableEq, Repr

/-- The reason codes of DIAG (R33, R231). -/
inductive HaltReason where
  | none
  | stackUnderflow
  | stackOverflow
  | outOfBounds
  | decodeMiss
  | stopped
  deriving DecidableEq, Repr

/-- DIAG, the halt diagnostic (R33). `opcode` means something only when `opcodeValid`. -/
structure Diag where
  reason : HaltReason
  pc : Word
  opcodeValid : Bool
  opcode : Word
  deriving DecidableEq, Repr

/-- One entry of LOG: a skipped invalid opcode and where it stood (R34). -/
structure Miss where
  opcode : Word
  pc : Word
  deriving DecidableEq, Repr

/-- A key write of the input source that lands inside a key scan, just before the scan reads key `before` (20_memory.md
R73, 43_display_keys.md R198). notes/assumptions/11. -/
structure ScanWrite where
  before : Nibble
  key : Nibble
  state : KeyState
  deriving DecidableEq, Repr

/-- A pixel read of the renderer that falls inside a `CLS` or `DRW`, `gap` pixel writes of the engine after the
renderer's previous read of the same cycle (20_memory.md R73, R74). notes/assumptions/12. -/
structure MidRead where
  gap : Nat
  x : Nat
  y : Nat
  deriving DecidableEq, Repr

/-- What the renderer's port answered for one read (60_exceptions.md R261). -/
structure PixelSeen where
  x : Nat
  y : Nat
  lit : Bool
  deriving DecidableEq, Repr

/-- One `SetPixel` of the engine (00_scope.md R12). -/
structure PixelWrite where
  x : Nat
  y : Nat
  lit : Bool
  deriving DecidableEq, Repr

/-- One step of one agent (60_exceptions.md R268). The engine's turn carries the accesses of the input source and the
renderer that fall inside its cycle. notes/assumptions/8. -/
inductive Turn where
  | engine (scan : List ScanWrite) (reads : List MidRead)
  | delayTick
  | soundTick
  | setKey (k : Nibble) (ks : KeyState)
  | getPixel (x y : Nat)
  | raiseStop
  deriving DecidableEq, Repr

/-- Everything the spec gives the machine (R20), the configuration it was built with (R35), its inputs as plain data (R36),
and the model's own counter of draws. -/
structure State where
  /-- The configuration, fixed at reset (R35). -/
  cfg : Config
  /-- V0 to VF (R21); VF is the flag register (R22). -/
  v : Vector Byte 16
  /-- The address register I (R23). -/
  i : Word
  /-- The program counter (R24). -/
  pc : Word
  /-- The sixteen slots of the call stack (R26). -/
  stack : Vector Word 16
  /-- SP, the number of live stack entries (R26). -/
  sp : Fin 17
  /-- RAM (R27). -/
  ram : Memory
  /-- The delay timer (R28). -/
  dt : Byte
  /-- The sound timer (R29). -/
  st : Byte
  /-- The framebuffer (R30). -/
  fb : Framebuffer
  /-- The keypad (R31). -/
  key : Vector KeyState 16
  /-- The run state (R32). -/
  run : RunState
  /-- The halt diagnostic (R33). -/
  diag : Diag
  /-- The record of skipped invalid opcodes, oldest first (R34). -/
  log : List Miss
  /-- The level of the host's stop request (R36 (b), R122). -/
  stopReq : Bool
  /-- The model's own field: which agents move next; when it is empty the engine moves. -/
  turns : List Turn
  /-- The model's own field: the key writes that land inside the key scan of the current cycle. -/
  scanWrites : List ScanWrite
  /-- The model's own field: what the renderer has read, oldest first. -/
  seen : List PixelSeen
  /-- The model's own field: how many draws were made; the free values of Config are applied to it. -/
  draws : Nat
  deriving DecidableEq, Repr

/-- Why a step has no next state. -/
inductive Fault where
  /-- Raised by the engine's cycle when RUN is Halted: the engine has no step (R129, U22). SAFE: the spec gives none. -/
  | engineHalted
  deriving DecidableEq, Repr

/-- Why an instruction has no meaning. -/
inductive Refusal where
  /-- Raised by an arm of `exec` for an instruction that is not modelled yet; no arm of this model raises it. SAFE. -/
  | notModelled (mnemonic : String)
  deriving DecidableEq, Repr

/-- Why reset constructs no state (70_reset_and_hazards.md R281, R283). Not an outcome of a step. -/
inductive ResetRefusal where
  /-- The grid has no column or no row, or the font is not sixteen glyphs below the program area (R283, U1). SAFE. -/
  | badConfiguration
  /-- The image does not fit between 0x200 and the end of RAM (R281, U10). SAFE. -/
  | imageTooLong
  deriving DecidableEq, Repr

/-- The outcome of an instruction or a step. -/
abbrev Result := Host.Outcome State Fault Refusal

/-- DIAG while the engine is Running (R33). -/
def Diag.clear : Diag := { reason := .none, pc := 0, opcodeValid := false, opcode := 0 }

/-- The state reset constructs for a configuration and the empty image, by the table of R40. Loading an image is
`State.construct` in Machine/Ops.lean. notes/assumptions/3. -/
def State.resetWith (c : Config) : State :=
  { cfg := c
    v := Vector.replicate 16 0
    i := 0x0000
    pc := 0x0200
    stack := Vector.replicate 16 0
    sp := 0
    ram := []
    dt := 0
    st := 0
    fb := []
    key := Vector.replicate 16 .released
    run := .running
    diag := Diag.clear
    log := []
    stopReq := false
    turns := []
    scanWrites := []
    seen := []
    draws := 0 }

/-- The machine right after reset with the reference configuration and the empty image (R40, R280). notes/assumptions/2. -/
def State.reset : State := State.resetWith Config.reference

end Sys2Proof.Machine
end

