-- ==== Sys2Proof/WellFormed.lean ====
section
/-! DEFINITION. What is checked before a run: the configuration and the program image that reset takes (70_reset_and_hazards.md
R281, R283; 93_implementation_defined.md U1, U10). An instruction needs no check: each operand's type is as wide as its
field, which is why a register index out of range cannot occur (10_state.md R21, U20). -/

namespace Sys2Proof

/-- A configuration reset accepts: a grid with at least one column and one row (R283), and a font of sixteen 5-byte
glyphs that lies below the program area (R220, D17). -/
def Config.wf (c : Config) : Bool :=
  decide (1 ≤ c.fbW) && decide (1 ≤ c.fbH) && decide (c.font.length = fontLength) &&
    decide (c.fontBase + fontLength ≤ progBase)

/-- An image that fits between `PROG_BASE` and the end of RAM (R281). -/
def imageFits (rom : List Byte) : Bool :=
  decide (rom.length ≤ imageMax)

end Sys2Proof
end

