-- ==== Sys2Proof/Machine/Ops.lean ====
section
/-! DEFINITION. The named operations over the state: RAM, framebuffer, registers, the call stack, the program counter, trap
entry, the decode miss, fetch, and reset with an image. Every meaning is written over these. -/

namespace Sys2Proof.Machine

/-! ### RAM (20_memory.md R60 to R69) -/

/-- The reset contents of RAM, less the image: the font at `FONT_BASE` and 0x00 everywhere else (R27, R40, R220). This is
what an unlisted address reads as. -/
def resetByte (c : Config) (a : Nat) : Byte :=
  if c.fontBase ≤ a then c.font.getD (a - c.fontBase) 0 else 0

/-- The byte at an address; `d` gives what an unlisted address reads as. -/
def Memory.read (d : Nat → Byte) : Memory → Nat → Byte
  | [], a => d a
  | (b, v) :: m, a => if a = b then v else Memory.read d m a

/-- The memory with one byte replaced, in the canonical form. -/
def Memory.write (d : Nat → Byte) : Memory → Nat → Byte → Memory
  | [], a, v => if v = d a then [] else [(a, v)]
  | (b, w) :: m, a, v =>
    if a < b then (if v = d a then (b, w) :: m else (a, v) :: (b, w) :: m)
    else if a = b then (if v = d a then m else (a, v) :: m)
    else (b, w) :: Memory.write d m a v

/-- Bytes written one at a time at ascending addresses (R63). -/
def Memory.writeBytes (d : Nat → Byte) : Memory → Nat → List Byte → Memory
  | m, _, [] => m
  | m, a, v :: vs => Memory.writeBytes d (Memory.write d m a v) (a + 1) vs

/-- The canonical form: addresses strictly rising and inside RAM, no entry equal to what an unlisted address reads as. -/
abbrev Memory.wf (d : Nat → Byte) (m : Memory) : Prop :=
  m.Pairwise (fun p q => p.1 < q.1) ∧ ∀ p ∈ m, p.1 < ramSize ∧ p.2 ≠ d p.1

/-- `MemRead(a, 1)` (00_scope.md R11). The meanings call it only for addresses they have checked. -/
def State.readByte (s : State) (a : Nat) : Byte :=
  s.ram.read (resetByte s.cfg) a

/-- `len` bytes at ascending addresses from `a`. -/
def State.readBytes (s : State) (a len : Nat) : List Byte :=
  (List.range len).map fun k => s.readByte (a + k)

/-- `MemWrite` at ascending addresses from `a` (R11, R63). -/
def State.writeBytes (s : State) (a : Nat) (vs : List Byte) : State :=
  { s with ram := s.ram.writeBytes (resetByte s.cfg) a vs }

/-- The bounds check of a data access to the `len` bytes from I: the last address, a natural number that never wraps, lies
inside RAM; no bytes need no check (R66, R82). -/
def State.operandInRam (s : State) (len : Nat) : Bool :=
  decide (len = 0 ∨ s.i.toNat + len - 1 < ramSize)

/-! ### The framebuffer (10_state.md R30, 00_scope.md R12) -/

/-- The number of the cell that coordinates name, each wrapped modulo its dimension (R12). -/
def pixelCell (c : Config) (x y : Nat) : Nat :=
  (y % c.fbH) * c.fbW + x % c.fbW

/-- The list with one more lit cell. -/
def Framebuffer.light (k : Nat) : Framebuffer → Framebuffer
  | [] => [k]
  | j :: fb => if k < j then k :: j :: fb else if k = j then j :: fb else j :: Framebuffer.light k fb

/-- The list with one cell no longer lit. -/
def Framebuffer.darken (k : Nat) (fb : Framebuffer) : Framebuffer :=
  fb.filter fun j => decide (j ≠ k)

/-- `GetPixel` on a framebuffer (R12). -/
def Framebuffer.get (c : Config) (fb : Framebuffer) (x y : Nat) : Bool :=
  decide (pixelCell c x y ∈ fb)

/-- `SetPixel` on a framebuffer (R12). -/
def Framebuffer.set (c : Config) (fb : Framebuffer) (w : PixelWrite) : Framebuffer :=
  if w.lit then fb.light (pixelCell c w.x w.y) else fb.darken (pixelCell c w.x w.y)

/-- A sequence of `SetPixel` in order. -/
def Framebuffer.setAll (c : Config) (fb : Framebuffer) (ws : List PixelWrite) : Framebuffer :=
  ws.foldl (Framebuffer.set c) fb

/-- The canonical form: cells strictly rising, each inside the grid. -/
abbrev Framebuffer.wf (c : Config) (fb : Framebuffer) : Prop :=
  fb.Pairwise (· < ·) ∧ ∀ k ∈ fb, k < c.fbH * c.fbW

/-- The renderer's and the engine's `GetPixel` (R12, 60_exceptions.md R261). -/
def State.getPixel (s : State) (x y : Nat) : Bool :=
  s.fb.get s.cfg x y

/-! ### Registers and keypad -/

/-- `V[x]` (00_scope.md R10). -/
def State.getV (s : State) (x : Nibble) : Byte := s.v[x.toNat]

/-- `V[x] <- b` (R10). -/
def State.setV (s : State) (x : Nibble) (b : Byte) : State :=
  { s with v := s.v.set x.toNat b }

/-- `I <- w`. -/
def State.setI (s : State) (w : Word) : State := { s with i := w }

/-- The flag written to VF: 0x00 or 0x01 (R22). -/
def State.setFlag (s : State) (f : Bool) : State :=
  s.setV 0xF (if f then 1 else 0)

/-- `GetKey(k)` (R12). -/
def keyAt (key : Vector KeyState 16) (k : Nibble) : KeyState := key[k.toNat]

/-- `SetKey(k, ks)` (R12). -/
def setKeyAt (key : Vector KeyState 16) (k : Nibble) (ks : KeyState) : Vector KeyState 16 :=
  key.set k.toNat ks

/-! ### The program counter (40_engine_cycle.md R126, 41_control_flow.md R149) -/

/-- The advance by one instruction width (R126 (d)). notes/assumptions/16. -/
def State.advance (s : State) : State := { s with pc := s.pc + 2 }

/-- The advance by two instruction widths when the condition of a skip holds, else by one (R126 (b)). -/
def State.skipIf (s : State) (b : Bool) : State :=
  { s with pc := if b then s.pc + 4 else s.pc + 2 }

/-- A transfer stores its target unchecked (R149). -/
def State.jumpTo (s : State) (target : Word) : State := { s with pc := target }

/-- The program-counter check of the fetch: even, 0x200 to 0xFFE (R123). -/
def State.pcLegal (s : State) : Bool :=
  decide (s.pc.toNat % 2 = 0 ∧ progBase ≤ s.pc.toNat ∧ s.pc.toNat ≤ pcMax)

/-- The fetch: two bytes, big-endian (R124, 20_memory.md R62). -/
def State.fetch (s : State) : Word :=
  opcodeOf (s.readByte s.pc.toNat) (s.readByte (s.pc.toNat + 1))

/-! ### The call stack (10_state.md R26) -/

/-- Push, when fewer than sixteen entries are live. -/
def State.push (s : State) (w : Word) : Option State :=
  if h : s.sp.val < 16 then
    some { s with stack := s.stack.set s.sp.val w, sp := ⟨s.sp.val + 1, by omega⟩ }
  else none

/-- Pop, when an entry is live: the state without it, and the entry. The vacated slot keeps its value (R141). -/
def State.pop (s : State) : Option (State × Word) :=
  if h : 0 < s.sp.val then
    some ({ s with sp := ⟨s.sp.val - 1, by omega⟩ }, s.stack[s.sp.val - 1])
  else none

/-! ### Halts (60_exceptions.md R235, R240) -/

/-- Trap entry, `raise R(info)` (R240): RUN and DIAG are written and nothing else. `op` is the opcode when the halt is
raised in the execute stage. -/
def State.raise (s : State) (r : HaltReason) (op : Option Word) : State :=
  { s with
    run := .halted
    diag := { reason := r, pc := s.pc, opcodeValid := op.isSome, opcode := op.getD 0 } }

/-- A halt raised by an instruction: DIAG names its opcode (R231). The instructions that can halt have no ignored bits, so
their opcode is their encoding. notes/assumptions/15. -/
def State.raiseIn (s : State) (r : HaltReason) (ins : Instr) : State :=
  s.raise r (some ins.encode)

/-- The handling of an invalid opcode (R235), by the policy. -/
def State.decodeMiss (s : State) (op : Word) : State :=
  match s.cfg.invalidPolicy with
  | .fatal => s.raise .decodeMiss (some op)
  | .skip => ({ s with log := s.log ++ [{ opcode := op, pc := s.pc }] } : State).advance

/-! ### Reset with an image (70_reset_and_hazards.md R280, R281) -/

/-- Reset: the state of R40 for a configuration and a program image, or the reason why none is constructed. -/
def State.construct (c : Config) (rom : List Byte) : Except ResetRefusal State :=
  if c.wf then
    if imageFits rom then .ok ((State.resetWith c).writeBytes progBase rom)
    else .error .imageTooLong
  else .error .badConfiguration

/-- The state whose very next step fetches the opcode `op`: its two bytes stand at the pc, as an image loaded at reset would
hold them. What the fetch needs besides is set only where it does not hold already: the engine Running, its turn, no stop
request, a pc it may fetch from. notes/assumptions/5. -/
def State.placeOpcode (s : State) (op : Word) : State :=
  let s := { s with
    pc := if s.pcLegal then s.pc else 0x0200
    run := .running
    stopReq := false
    turns := [] }
  s.writeBytes s.pc.toNat [opcodeHi op, opcodeLo op]

end Sys2Proof.Machine
end

