-- ==== Sys2Proof/Machine/Flags.lean ====
section
/-! DEFINITION. Every flag computation the spec gives (10_state.md R22, 42_alu.md R172, R173, 43_display_keys.md R192). -/

namespace Sys2Proof.Machine

/-- The carry of `ADD Vx, Vy`: the unsigned sum exceeds 255 (R167). -/
def carryOut (a b : Byte) : Bool := decide (a.toNat + b.toNat > 255)

/-- The flag of the subtractions: no borrow, the minuend is at least the subtrahend (R168, R170). -/
def noBorrow (minuend subtrahend : Byte) : Bool := decide (minuend.toNat ≥ subtrahend.toNat)

/-- The bit `SHR` shifts out: the least significant bit (R169). -/
def shiftedOutRight (a : Byte) : Bool := a.getLsbD 0

/-- The bit `SHL` shifts out: the most significant bit (R171). -/
def shiftedOutLeft (a : Byte) : Bool := a.getLsbD 7

/-- The collision of `DRW`: one of its pixel writes clears a pixel that was set (R192). -/
def collided (ws : List PixelWrite) : Bool := ws.any fun w => !w.lit

/-- The two writes of a flag-writing instruction, in the order of R172: the flag to VF, then the result to `V[x]`. With
x = 0xF the result stays. -/
def State.setFlagThenV (s : State) (f : Bool) (x : Nibble) (result : Byte) : State :=
  (s.setFlag f).setV x result

end Sys2Proof.Machine
end

