-- ==== Sys2Proof/Machine/Operands.lean ====
section
/-! DEFINITION. Every operand form the spec gives (30_encoding.md R93): registers, `V0`, immediates, addresses, the key and
glyph a register's low nibble selects, the memory operand at I, and the sprite at I. -/

namespace Sys2Proof.Machine

/-- The address operand of a jump, a call or `LD I`: zero-extended to 16 bits (R93). -/
def zextAddr (nnn : Addr) : Word := nnn.zeroExtend 16

/-- A register used as a 16-bit addend: zero-extended (R148, R215). -/
def State.getV16 (s : State) (x : Nibble) : Word := (s.getV x).zeroExtend 16

/-- The low nibble of a register, which selects a key (R194) or a glyph (R216). -/
def State.lowNibble (s : State) (x : Nibble) : Nibble := (s.getV x).extractLsb' 0 4

/-- A key id as the byte `LD Vx, K` stores: zero-extended (R196). -/
def keyByte (k : Nibble) : Byte := k.zeroExtend 8

/-- The address of the glyph of a hexadecimal digit (R216). -/
def glyphAddress (c : Config) (d : Nibble) : Word := BitVec.ofNat 16 (c.fontBase + glyphBytes * d.toNat)

/-- `len` bytes of the memory operand, from I on (R82). -/
def State.operandBytes (s : State) (len : Nat) : List Byte := s.readBytes s.i.toNat len

/-- The registers V0 to Vx, in order: what `LD [I], Vx` stores (R218). -/
def State.regsUpTo (s : State) (x : Nibble) : List Byte := s.v.toList.take (x.toNat + 1)

/-- The digits `LD B, Vx` stores: hundreds, tens, ones (R217). -/
def bcdDigits (b : Byte) : List Byte :=
  [BitVec.ofNat 8 (b.toNat / 100), BitVec.ofNat 8 (b.toNat / 10 % 10), BitVec.ofNat 8 (b.toNat % 10)]

/-- V0 to V(count-1) loaded one at a time from ascending addresses (R219). -/
def loadRegsFrom (s : State) : Nat → Vector Byte 16
  | 0 => s.v
  | k + 1 => (loadRegsFrom s k).setIfInBounds k (s.readByte (s.i.toNat + k))

/-- The columns of the set bits of a sprite row, bit 7 leftmost, ascending (R192). -/
def rowPixels (vx y : Nat) (row : Byte) : List (Nat × Nat) :=
  ((List.range 8).filter fun c => row.getLsbD (7 - c)).map fun c => (vx + c, y)

/-- The coordinates of the set bits of a sprite, rows ascending (R192). They are not wrapped here: `GetPixel` and `SetPixel`
wrap them. -/
def spritePixels (vx vy : Nat) : List Byte → List (Nat × Nat)
  | [] => []
  | row :: rows => rowPixels vx vy row ++ spritePixels vx (vy + 1) rows

end Sys2Proof.Machine
end

