-- ==== Sys2Proof/Machine/Display.lean ====
section
/-! DEFINITION. The display instructions (43_display_keys.md R190 to R193), and the `SetPixel` calls each makes, in order:
what the renderer may observe while one runs (20_memory.md R73, R74). -/

namespace Sys2Proof.Machine

/-- The `SetPixel` calls of `CLS`, rows ascending, columns ascending within a row (R191). -/
def clearWrites (c : Config) : List PixelWrite :=
  (List.range c.fbH).flatMap fun y => (List.range c.fbW).map fun x => { x := x, y := y, lit := false }

/-- `CLS` (R191): every cell becomes false. The empty list is what the calls of `clearWrites` leave of any framebuffer inside
its grid. notes/assumptions/14. -/
def execClearDisplay (s : State) : Result :=
  .next ({ s with fb := [] } : State).advance

/-- The `SetPixel` calls that invert the pixels at the given coordinates one after another; each sees the framebuffer as
the one before it left it (R192 (g)). -/
def toggleWrites (c : Config) : Framebuffer → List (Nat × Nat) → List PixelWrite
  | _, [] => []
  | fb, (x, y) :: ps =>
    let w : PixelWrite := { x := x, y := y, lit := !fb.get c x y }
    w :: toggleWrites c (fb.set c w) ps

/-- The `SetPixel` calls of `DRW` when its sprite lies inside RAM (R192). The coordinates are the old `V[x]` and `V[y]`. -/
def State.drawWrites (s : State) (x y n : Nibble) : List PixelWrite :=
  toggleWrites s.cfg s.fb
    (spritePixels (s.getV x).toNat (s.getV y).toNat (s.operandBytes n.toNat))

/-- `DRW Vx, Vy, n` (R192): the bounds check precedes every effect; VF is written once, after the pixels. -/
def execDraw (x y n : Nibble) (s : State) : Result :=
  if s.operandInRam n.toNat then
    let ws := s.drawWrites x y n
    .next ({ s with fb := s.fb.setAll s.cfg ws }.setFlag (collided ws)).advance
  else .next (s.raiseIn .outOfBounds (.draw x y n))

/-- The `SetPixel` calls of an instruction; only `CLS` and `DRW` make any (R30). -/
def State.pixelWrites (s : State) : Instr → List PixelWrite
  | .clearDisplay => clearWrites s.cfg
  | .draw x y n => if s.operandInRam n.toNat then s.drawWrites x y n else []
  | _ => []

end Sys2Proof.Machine
end

