-- ==== Sys2Proof/Machine/Keypad.lean ====
section
/-! DEFINITION. The keypad instructions (43_display_keys.md R194 to R198). The core never writes a key (60_exceptions.md
R260). -/

namespace Sys2Proof.Machine

/-- The keypad after those of the given writes that land just before the scan reads key `k`. -/
def landBefore (ws : List ScanWrite) (k : Nibble) (key : Vector KeyState 16) : Vector KeyState 16 :=
  (ws.filter fun w => w.before = k).foldl (fun key w => setKeyAt key w.key w.state) key

/-- The keypad as the k-th of the sixteen reads of a scan sees it: the writes that land before reads 0 to k have happened
(20_memory.md R73). -/
def keypadAtRead (ws : List ScanWrite) (key : Vector KeyState 16) : Nat → Vector KeyState 16
  | 0 => landBefore ws 0 key
  | k + 1 => landBefore ws (BitVec.ofNat 4 (k + 1)) (keypadAtRead ws key k)

/-- The set S of R196: the ids that read Pressed in this poll, ids ascending. -/
def State.pressedInScan (s : State) : List Nibble :=
  ((List.range 16).map (BitVec.ofNat 4)).filter fun k =>
    keyAt (keypadAtRead s.scanWrites s.key k.toNat) k = .pressed

/-- `draw_key(S)` for an S of two or more (R198): a free value picks the member. -/
def pickKey (draw : Nat) (k : Nibble) (ks : List Nibble) : Nibble :=
  (k :: ks).getD (draw % (ks.length + 1)) k

/-- `SKP Vx` (R194): the low nibble selects the key. -/
def execSkipKeyPressed (x : Nibble) (s : State) : Result :=
  .next (s.skipIf (decide (keyAt s.key (s.lowNibble x) = .pressed)))

/-- `SKNP Vx` (R195). -/
def execSkipKeyNotPressed (x : Nibble) (s : State) : Result :=
  .next (s.skipIf (decide (keyAt s.key (s.lowNibble x) = .released)))

/-- `LD Vx, K` (R196), one poll: with no key Pressed nothing changes and the pc stays; with one its id is stored; with
several any of them is (R198). -/
def execWaitKey (x : Nibble) (s : State) : Result :=
  match s.pressedInScan with
  | [] => .next s
  | [k] => .next (s.setV x (keyByte k)).advance
  | k :: ks =>
    .next ({ s with draws := s.draws + 1 }.setV x (keyByte (pickKey (Config.drawKey s.draws) k ks))).advance

end Sys2Proof.Machine
end

