-- ==== Sys2Proof/Machine/Agents.lean ====
section
/-! DEFINITION. The steps of the agents beside the engine (60_exceptions.md R250 to R268), and their accesses that fall inside
an engine cycle (20_memory.md R73, R74). -/

namespace Sys2Proof.Machine

/-- The timer activity has stopped: the engine has halted with `Stopped` (R256). -/
def State.timersStopped (s : State) : Bool :=
  decide (s.run = .halted ∧ s.diag.reason = .stopped)

/-- One decrement of a counter, never below zero (R251). -/
def tick (b : Byte) : Byte := if b = 0 then 0 else b - 1

/-- A step of the delay-tick agent (R251, R256). -/
def State.tickDelay (s : State) : State :=
  if s.timersStopped then s else { s with dt := tick s.dt }

/-- A step of the sound-tick agent (R251, R256). -/
def State.tickSound (s : State) : State :=
  if s.timersStopped then s else { s with st := tick s.st }

/-- A step of the input source: one `set_key_state` (R260, R266). -/
def State.setKeyState (s : State) (k : Nibble) (ks : KeyState) : State :=
  { s with key := setKeyAt s.key k ks }

/-- A step of the renderer: one `get_pixel`, which changes nothing but the record of what it saw (R261, R265). -/
def State.observePixel (s : State) (x y : Nat) : State :=
  { s with seen := s.seen ++ [{ x := x, y := y, lit := s.getPixel x y }] }

/-- The host raises its stop request, a level that stays raised (R122, R267). -/
def State.requestStop (s : State) : State := { s with stopReq := true }

/-- What the renderer's reads inside a cycle see of the cycle's pixel writes: each sees those made so far (R73, R74). -/
def seenDuring (c : Config) : Framebuffer → List PixelWrite → List MidRead → List PixelSeen
  | _, _, [] => []
  | fb, ws, r :: rs =>
    let fb' := fb.setAll c (ws.take r.gap)
    { x := r.x, y := r.y, lit := fb'.get c r.x r.y } :: seenDuring c fb' (ws.drop r.gap) rs

/-- The other agents' accesses inside a cycle take effect on the state `t` the engine left: the input source's writes of the
key scan land in the keypad, and the renderer's reads are recorded. `fb` is the framebuffer before the cycle and `ws`
the cycle's pixel writes. -/
def State.landAgents (t : State) (fb : Framebuffer) (ws : List PixelWrite) (reads : List MidRead) : State :=
  { t with
    key := keypadAtRead t.scanWrites t.key 15
    scanWrites := []
    seen := t.seen ++ seenDuring t.cfg fb ws reads }

end Sys2Proof.Machine
end

