-- ==== Sys2Proof/Machine/Alu.lean ====
section
/-! DEFINITION. Moves, arithmetic, logic, shifts and random (42_alu.md R160 to R173, R181). Operands are read before
anything is written; none halts; each advances by one instruction. -/

namespace Sys2Proof.Machine

/-- `LD Vx, kk` (R161). -/
def execLoadImm (x : Nibble) (kk : Byte) (s : State) : Result :=
  .next (s.setV x kk).advance

/-- `ADD Vx, kk` (R162): wraps, writes no flag. -/
def execAddImm (x : Nibble) (kk : Byte) (s : State) : Result :=
  .next (s.setV x (s.getV x + kk)).advance

/-- `LD Vx, Vy` (R163). -/
def execMove (x y : Nibble) (s : State) : Result :=
  .next (s.setV x (s.getV y)).advance

/-- `OR Vx, Vy` (R164): VF is not written. -/
def execOr (x y : Nibble) (s : State) : Result :=
  .next (s.setV x (s.getV x ||| s.getV y)).advance

/-- `AND Vx, Vy` (R165): VF is not written. -/
def execAnd (x y : Nibble) (s : State) : Result :=
  .next (s.setV x (s.getV x &&& s.getV y)).advance

/-- `XOR Vx, Vy` (R166): VF is not written. -/
def execXor (x y : Nibble) (s : State) : Result :=
  .next (s.setV x (s.getV x ^^^ s.getV y)).advance

/-- `ADD Vx, Vy` (R167). -/
def execAddWithCarry (x y : Nibble) (s : State) : Result :=
  .next (s.setFlagThenV (carryOut (s.getV x) (s.getV y)) x (s.getV x + s.getV y)).advance

/-- `SUB Vx, Vy` (R168): the minuend is `V[x]`. -/
def execSubtract (x y : Nibble) (s : State) : Result :=
  .next (s.setFlagThenV (noBorrow (s.getV x) (s.getV y)) x (s.getV x - s.getV y)).advance

/-- `SHR Vx` (R169): a logical shift of `V[x]` in place. -/
def execShiftRight (x : Nibble) (s : State) : Result :=
  .next (s.setFlagThenV (shiftedOutRight (s.getV x)) x (s.getV x >>> 1)).advance

/-- `SUBN Vx, Vy` (R170): the minuend is `V[y]`, the destination stays `V[x]`. -/
def execSubtractReversed (x y : Nibble) (s : State) : Result :=
  .next (s.setFlagThenV (noBorrow (s.getV y) (s.getV x)) x (s.getV y - s.getV x)).advance

/-- `SHL Vx` (R171). -/
def execShiftLeft (x : Nibble) (s : State) : Result :=
  .next (s.setFlagThenV (shiftedOutLeft (s.getV x)) x (s.getV x <<< 1)).advance

/-- `RND Vx, kk` (R181): the byte is a free value, one fresh draw an instruction. -/
def execRandom (x : Nibble) (kk : Byte) (s : State) : Result :=
  .next ({ s with draws := s.draws + 1 }.setV x (Config.drawByte s.draws &&& kk)).advance

end Sys2Proof.Machine
end

