-- ==== Sys2Proof/Machine/ControlFlow.lean ====
section
/-! DEFINITION. The control-flow instructions (41_control_flow.md R140 to R150). None writes VF, a register, I, RAM, a timer
or the framebuffer. -/

namespace Sys2Proof.Machine

/-- `RET` (R141). -/
def execReturn (s : State) : Result :=
  match s.pop with
  | some (s', target) => .next (s'.jumpTo target)
  | none => .next (s.raiseIn .stackUnderflow .returnFromSubroutine)

/-- `JP nnn` (R142). -/
def execJump (nnn : Addr) (s : State) : Result :=
  .next (s.jumpTo (zextAddr nnn))

/-- `CALL nnn` (R143): the return address is the address of the instruction after the call. -/
def execCall (nnn : Addr) (s : State) : Result :=
  match s.push (s.pc + 2) with
  | some s' => .next (s'.jumpTo (zextAddr nnn))
  | none => .next (s.raiseIn .stackOverflow (.call nnn))

/-- `SE Vx, kk` (R144). -/
def execSkipEqImm (x : Nibble) (kk : Byte) (s : State) : Result :=
  .next (s.skipIf (decide (s.getV x = kk)))

/-- `SNE Vx, kk` (R145). -/
def execSkipNeqImm (x : Nibble) (kk : Byte) (s : State) : Result :=
  .next (s.skipIf (decide (s.getV x ≠ kk)))

/-- `SE Vx, Vy` (R146). -/
def execSkipEqReg (x y : Nibble) (s : State) : Result :=
  .next (s.skipIf (decide (s.getV x = s.getV y)))

/-- `SNE Vx, Vy` (R147). -/
def execSkipNeqReg (x y : Nibble) (s : State) : Result :=
  .next (s.skipIf (decide (s.getV x ≠ s.getV y)))

/-- `JP V0, nnn` (R148): the register is always V0 and the sum is not masked. -/
def execJumpOffset (nnn : Addr) (s : State) : Result :=
  .next (s.jumpTo (zextAddr nnn + s.getV16 0x0))

end Sys2Proof.Machine
end

