-- ==== Sys2Proof/Machine/Index.lean ====
section
/-! DEFINITION. The instructions that write the address register (44_timers_index_memory.md R214 to R216). -/

namespace Sys2Proof.Machine

/-- `LD I, nnn` (R214). -/
def execLoadIndex (nnn : Addr) (s : State) : Result :=
  .next (s.setI (zextAddr nnn)).advance

/-- `ADD I, Vx` (R215): wraps modulo 65536, no flag. -/
def execAddIndex (x : Nibble) (s : State) : Result :=
  .next (s.setI (s.i + s.getV16 x)).advance

/-- `LD F, Vx` (R216): the address of the glyph of the low nibble; no RAM is read. -/
def execLoadFont (x : Nibble) (s : State) : Result :=
  .next (s.setI (glyphAddress s.cfg (s.lowNibble x))).advance

end Sys2Proof.Machine
end

