-- ==== Sys2Proof/Machine/Timers.lean ====
section
/-! DEFINITION. The timer instructions (44_timers_index_memory.md R211 to R213). -/

namespace Sys2Proof.Machine

/-- `LD Vx, DT` (R211). -/
def execReadDelay (x : Nibble) (s : State) : Result :=
  .next (s.setV x s.dt).advance

/-- `LD DT, Vx` (R212): replaces the counter, higher or lower. -/
def execSetDelay (x : Nibble) (s : State) : Result :=
  .next ({ s with dt := s.getV x } : State).advance

/-- `LD ST, Vx` (R213). -/
def execSetSound (x : Nibble) (s : State) : Result :=
  .next ({ s with st := s.getV x } : State).advance

end Sys2Proof.Machine
end

