-- ==== Sys2Proof/Machine/Transfer.lean ====
section
/-! DEFINITION. The instructions that move data between registers and RAM (44_timers_index_memory.md R217 to R219). Every
address is checked before anything is written; I is unchanged. -/

namespace Sys2Proof.Machine

/-- `LD B, Vx` (R217). -/
def execStoreBcd (x : Nibble) (s : State) : Result :=
  if s.operandInRam 3 then .next (s.writeBytes s.i.toNat (bcdDigits (s.getV x))).advance
  else .next (s.raiseIn .outOfBounds (.storeBcd x))

/-- `LD [I], Vx` (R218). -/
def execStoreRegs (x : Nibble) (s : State) : Result :=
  if s.operandInRam (x.toNat + 1) then .next (s.writeBytes s.i.toNat (s.regsUpTo x)).advance
  else .next (s.raiseIn .outOfBounds (.storeRegs x))

/-- `LD Vx, [I]` (R219). -/
def execLoadRegs (x : Nibble) (s : State) : Result :=
  if s.operandInRam (x.toNat + 1) then .next ({ s with v := loadRegsFrom s (x.toNat + 1) } : State).advance
  else .next (s.raiseIn .outOfBounds (.loadRegs x))

end Sys2Proof.Machine
end

