-- ==== Sys2Proof/Machine/Engine.lean ====
section
/-! DEFINITION. One cycle of the engine (40_engine_cycle.md R121 to R129) and the turn it takes among the agents. -/

namespace Sys2Proof.Machine

/-- What the engine does in its next cycle. -/
inductive Cycle where
  | noStep
  | stop
  | badPc
  | miss (op : Word)
  | run (i : Instr)
  deriving DecidableEq, Repr

/-- The checks of a cycle in their order (R121, R238): a halted engine has no step, then the stop request, then the pc check,
then fetch and decode. -/
def State.cycle (s : State) : Cycle :=
  if s.run = .halted then .noStep
  else if s.stopReq then .stop
  else if s.pcLegal then
    match decode s.fetch with
    | .valid i => .run i
    | .invalidInstruction op => .miss op
  else .badPc

/-- One cycle (R121): a halt before or at the fetch records no opcode (R231, R240). -/
def engineCycle (s : State) : Result :=
  match s.cycle with
  | .noStep => .fault .engineHalted
  | .stop => .next (s.raise .stopped none)
  | .badPc => .next (s.raise .outOfBounds none)
  | .miss op => .next (s.decodeMiss op)
  | .run i => exec i s

/-- The `SetPixel` calls the next cycle makes. -/
def State.cycleWrites (s : State) : List PixelWrite :=
  match s.cycle with
  | .run i => s.pixelWrites i
  | _ => []

/-- A function of the next state, where there is one. -/
def onNext (r : Result) (f : State → State) : Result :=
  match r with
  | .next s => .next (f s)
  | .fault e => .fault e
  | .refused e => .refused e

/-- The engine's turn: one cycle, with the other agents' accesses that fall inside it. -/
def engineTurn (s : State) (reads : List MidRead) : Result :=
  onNext (engineCycle s) fun t => t.landAgents s.fb s.cycleWrites reads

end Sys2Proof.Machine
end

