-- ==== Sys2Proof/Machine/Step.lean ====
section
/-! DEFINITION. One step of the system: the agent whose turn it is moves (60_exceptions.md R268). -/

namespace Sys2Proof.Machine

/-- One step. The head of `turns` says who moves; when the list is empty the engine does. -/
def step (s : State) : Host.Outcome State Fault Refusal :=
  match s.turns with
  | [] => engineTurn s []
  | .engine scan reads :: rest => engineTurn { s with turns := rest, scanWrites := scan } reads
  | .delayTick :: rest => .next ({ s with turns := rest } : State).tickDelay
  | .soundTick :: rest => .next ({ s with turns := rest } : State).tickSound
  | .setKey k ks :: rest => .next ({ s with turns := rest }.setKeyState k ks)
  | .getPixel x y :: rest => .next ({ s with turns := rest }.observePixel x y)
  | .raiseStop :: rest => .next ({ s with turns := rest } : State).requestStop

/-- The state whose very next step runs the instruction with the table bits `w` (see `State.placeOpcode`). -/
def State.withFetchWord (s : State) (nbits w : Nat) : State :=
  s.placeOpcode (tableOpcode nbits w)

end Sys2Proof.Machine
end

