-- ==== Sys2Proof/Safety.lean ====
section
/-! DEFINITION. The terms claims are stated in: what two states agree on, the invariant of every reachable state (10_state.md
R39), halted and settled states (40_engine_cycle.md R127, R131). -/

namespace Sys2Proof.Machine

/-- The components of the state. `stack` is SP with all sixteen slots. -/
inductive Part where
  | cfg | v | i | pc | stack | ram | dt | st | fb | key | run | diag | log | stopReq | turns |
    scanWrites | seen | draws
  deriving DecidableEq, Repr

/-- Two states agree on a component. RAM is compared through the read of every address, the framebuffer through the read
of every coordinate. -/
def Agree (s t : State) : Part → Prop
  | .cfg => t.cfg = s.cfg
  | .v => ∀ r, t.getV r = s.getV r
  | .i => t.i = s.i
  | .pc => t.pc = s.pc
  | .stack => t.sp = s.sp ∧ t.stack = s.stack
  | .ram => ∀ a, t.readByte a = s.readByte a
  | .dt => t.dt = s.dt
  | .st => t.st = s.st
  | .fb => ∀ x y, t.getPixel x y = s.getPixel x y
  | .key => t.key = s.key
  | .run => t.run = s.run
  | .diag => t.diag = s.diag
  | .log => t.log = s.log
  | .stopReq => t.stopReq = s.stopReq
  | .turns => t.turns = s.turns
  | .scanWrites => t.scanWrites = s.scanWrites
  | .seen => t.seen = s.seen
  | .draws => t.draws = s.draws

/-- The frame of a change: `t` agrees with `s` on every component but those listed. -/
def SameExcept (changed : List Part) (s t : State) : Prop :=
  ∀ p : Part, p ∉ changed → Agree s t p

/-- A value a live stack slot can hold: the address after a `CALL` at a valid fetch address (R39). -/
def liveEntry (w : Word) : Bool :=
  decide (w.toNat % 2 = 0 ∧ 0x202 ≤ w.toNat ∧ w.toNat ≤ 0x1000)

/-- DIAG agrees with RUN: clear while Running; a reason once Halted; no opcode bits where none was fetched (R33, R231). -/
def diagMatchesRun (run : RunState) (d : Diag) : Bool :=
  match run with
  | .running => decide (d = Diag.clear)
  | .halted => decide (d.reason ≠ .none) && (d.opcodeValid || decide (d.opcode = 0))

/-- A LOG entry is an invalid opcode at a valid fetch address (R34, R235). -/
def loggedMiss (m : Miss) : Bool :=
  decide (decode m.opcode = .invalidInstruction m.opcode) &&
    decide (m.pc.toNat % 2 = 0 ∧ progBase ≤ m.pc.toNat ∧ m.pc.toNat ≤ pcMax)

/-- The invariant of every reachable state (R39), with the canonical forms of the memory and the framebuffer. The bounds of
R39 on V, I, DT, ST and SP are the fields' types. -/
structure State.Inv (s : State) : Prop where
  cfg_wf : s.cfg.wf = true
  ram_wf : Memory.wf (resetByte s.cfg) s.ram
  fb_wf : Framebuffer.wf s.cfg s.fb
  pc_bound : s.pc.toNat ≤ 0x10FE
  live : ∀ k : Fin 16, k.val < s.sp.val → liveEntry s.stack[k] = true
  diag_matches : diagMatchesRun s.run s.diag = true
  log_misses : ∀ m ∈ s.log, loggedMiss m = true

/-- It is the engine's plain turn: no other agent moves before it or inside its cycle. -/
def State.engineMoves (s : State) : Prop := s.turns = [] ∧ s.scanWrites = []

/-- The engine's next cycle reaches the fetch: Running, no stop request, a legal pc (R121 to R123). -/
def State.canFetch (s : State) : Prop := s.run = .running ∧ s.stopReq = false ∧ s.pcLegal = true

/-- The state a halt leaves (R240): `s` with RUN Halted and DIAG as given. -/
def State.haltedWith (s : State) (r : HaltReason) (op : Option Word) : State :=
  { s with
    run := .halted
    diag := { reason := r, pc := s.pc, opcodeValid := op.isSome, opcode := op.getD 0 } }

/-- "Settled at a" (R131): Running, at `a`, and the instruction there is a jump to `a`. -/
def State.settledAt (s : State) (a : Word) : Prop :=
  s.run = .running ∧ s.pc = a ∧ s.fetch = 0x1000 + a

/-- The coordinates of the set bits of a sprite, rows ascending, bit 7 leftmost (R192, D13). -/
def spriteHits (s : State) (x y n : Nibble) : List (Nat × Nat) :=
  (List.range n.toNat).flatMap fun r =>
    ((List.range 8).filter fun c => (s.readByte (s.i.toNat + r)).getLsbD (7 - c)).map fun c =>
      ((s.getV x).toNat + c, (s.getV y).toNat + r)

/-- How many of the coordinates wrap onto the cell of (x, y). -/
def hitsOn (c : Config) (x y : Nat) (ps : List (Nat × Nat)) : Nat :=
  ps.countP fun p => decide (p.1 % c.fbW = x % c.fbW ∧ p.2 % c.fbH = y % c.fbH)

/-- The key writes of a scan that have landed by its k-th read, in the order they land: by the read each comes before, and those
before one read in the order they are given (20_memory.md R73). -/
def landing (ws : List ScanWrite) (k : Nat) : List ScanWrite :=
  (List.range (k + 1)).flatMap fun b => ws.filter fun w => decide (w.before.toNat = b)

/-- The state of key `j` when the k-th read of a scan is made: what the last write to it that has landed gave it, else what the
keypad held (R73, 43_display_keys.md R198). -/
def keyAfter (ws : List ScanWrite) (key : Vector KeyState 16) (k : Nat) (j : Nibble) : KeyState :=
  match ((landing ws k).filter fun w => decide (w.key = j)).getLast? with
  | some w => w.state
  | none => keyAt key j

/-- What the renderer's reads inside a cycle answer: each the pixel after as many of the cycle's pixel writes as its gap and those
of the reads before it say (R73, R74). -/
def readsSeen (c : Config) (fb : Framebuffer) (ws : List PixelWrite) (reads : List MidRead) : List PixelSeen :=
  reads.mapIdx fun n r =>
    { x := r.x, y := r.y, lit := (fb.setAll c (ws.take ((reads.take (n + 1)).map MidRead.gap).sum)).get c r.x r.y }

/-- `u` is the state `t` an engine cycle from `s` left, once the accesses of the other agents inside it have landed: the keypad
holds all key writes of the scan, and the renderer's record holds its reads. `ws` are the pixel writes of the cycle. -/
def Landed (s : State) (scan : List ScanWrite) (reads : List MidRead) (ws : List PixelWrite) (t u : State) : Prop :=
  ∃ key, (∀ j, keyAt key j = keyAfter scan s.key 15 j) ∧
    u = { t with key := key, scanWrites := [], seen := s.seen ++ readsSeen s.cfg s.fb ws reads }

/-- It is the engine's turn, whether or not accesses of other agents fall inside its cycle. -/
def State.engineNext (s : State) : Prop :=
  s.turns = [] ∨ ∃ scan reads rest, s.turns = .engine scan reads :: rest

/-- The state an engine's turn runs its cycle on: the turn is taken, and the key writes of the scan are pending. -/
def State.onTurn (s : State) (scan : List ScanWrite) (rest : List Turn) : State :=
  { s with turns := rest, scanWrites := scan }

/-- The numeric codes of the halt reasons (R231; D19). -/
def HaltReason.code : HaltReason → BitVec 3
  | .none => 0
  | .stackUnderflow => 1
  | .stackOverflow => 2
  | .outOfBounds => 3
  | .decodeMiss => 4
  | .stopped => 5

/-- The numeric code of RUN (R41; D19). -/
def RunState.code : RunState → BitVec 1
  | .running => 0
  | .halted => 1

/-- The numeric code of `invalid_policy` (R41). -/
def InvalidPolicy.code : InvalidPolicy → BitVec 1
  | .skip => 0
  | .fatal => 1

end Sys2Proof.Machine
end

