-- ==== Sys2Proof/Certificates/Slice0/Obligations.lean ====
section
/-! DEFINITION. The statements for the provers, from the numbered rules of spec/. Each docstring names the rules, and where a
clause rests on a decision the spec marks as its own (D<n>) or on a choice of this model (entry n: notes/assumptions/n.md), it
says so. A statement that names an opcode or an encoding other than 0x00E0, 0x1nnn and 0x8xy4 rests on the standard opcode
table, which the spec marks as general knowledge (D5, G1, entry 6). A statement about a free value (`Config.drawByte`,
`Config.drawKey`) holds for every value of it. -/

open Sys2Proof Sys2Proof.Machine

/-! ### The decoder (30_encoding.md) -/

/-- Decoding the opcode of an instruction gives the instruction, with every operand at every value (R91, R96, R106). The
opcode numbers are the spec's general knowledge but for three (D5, G1). -/
def Obligations.DecodeOfEncode : Prop :=
  ∀ i : Instr, decode i.encode = .valid i

/-- Encoding what was decoded gives the opcode back, with the digits its row ignores cleared: the low nibble of families 5 and
9 (R98, D4) and the `y` of the shifts (R106, D8). -/
def Obligations.EncodeOfDecode : Prop :=
  ∀ (op : Word) (i : Instr), decode op = .valid i → i.encode = op &&& ~~~i.row.ignored

/-- The decoder agrees with the opcode map (R96, R99, R106): a decoded instruction's row is in the map and matches; an opcode
that no row matches gives the invalid sentinel carrying it; and the sentinel is given only then. -/
def Obligations.DecoderFollowsOpcodeMap : Prop :=
  (∀ (op : Word) (i : Instr), decode op = .valid i → i.row ∈ opcodeTable ∧ op &&& i.row.mask = i.row.bits) ∧
  (∀ op : Word, (∀ r ∈ opcodeTable, op &&& r.mask ≠ r.bits) → decode op = .invalidInstruction op) ∧
  (∀ op o : Word, decode op = .invalidInstruction o → o = op ∧ ∀ r ∈ opcodeTable, op &&& r.mask ≠ r.bits)

/-- No opcode matches two rows of the map (R96). -/
def Obligations.OpcodeRowsDisjoint : Prop :=
  ∀ (op : Word) (r r' : OpcodeRow), r ∈ opcodeTable → r' ∈ opcodeTable →
    op &&& r.mask = r.bits → op &&& r'.mask = r'.bits → r = r'

/-- The encodings the source attests (R97): three opcodes, and the sentinel for every opcode outside the table. -/
def Obligations.SourceAttestedEncodings : Prop :=
  decode 0x00E0 = .valid .clearDisplay ∧
  decode 0x1ABC = .valid (.jump 0xABC) ∧
  decode 0x8AB4 = .valid (.addWithCarry 0xA 0xB) ∧
  (∀ op : Word, (∀ r ∈ opcodeTable, op &&& r.mask ≠ r.bits) → decode op = .invalidInstruction op)

/-- The digits the decoder ignores: the low nibble of families 5 and 9 (R98, D4) and the second register digit of the shifts
(R106, D8). -/
def Obligations.IgnoredDigitsDoNotMatter : Prop :=
  ∀ x y n : Nibble,
    decode (formatXYN 0x5 x y n) = .valid (.skipEqReg x y) ∧
    decode (formatXYN 0x9 x y n) = .valid (.skipNeqReg x y) ∧
    decode (formatXYN 0x8 x y 0x6) = .valid (.shiftRight x) ∧
    decode (formatXYN 0x8 x y 0xE) = .valid (.shiftLeft x)

/-- Exactly which opcodes are invalid (R99; clause (a) is the decision D6). -/
def Obligations.InvalidOpcodesExactly : Prop :=
  ∀ op : Word, decode op = .invalidInstruction op ↔
    (opTop op = 0x0 ∧ op ≠ 0x00E0 ∧ op ≠ 0x00EE) ∨
    (opTop op = 0x8 ∧ opN op ∈ ([0x8, 0x9, 0xA, 0xB, 0xC, 0xD, 0xF] : List Nibble)) ∨
    (opTop op = 0xE ∧ opKK op ∉ ([0x9E, 0xA1] : List Byte)) ∨
    (opTop op = 0xF ∧ opKK op ∉ ([0x07, 0x0A, 0x15, 0x18, 0x1E, 0x29, 0x33, 0x55, 0x65] : List Byte))

/-- A sanity statement: words written out from the encodings of R96, one or more a family, decode to their instructions. All twelve
are rows the spec marks as general knowledge (D5, G1, entry 6); 0x512F rests on the ignored low nibble too (D4, entry 19), 0xB300
on the existence of `JP V0, nnn` (D31, G3, entry 7). -/
def Obligations.SampleWordsDecode : Prop :=
  ∀ p ∈ ([(0x00EE, .returnFromSubroutine), (0x2300, .call 0x300), (0x332A, .skipEqImm 0x3 0x2A),
      (0x512F, .skipEqReg 0x1 0x2), (0x7120, .addImm 0x1 0x20), (0x8127, .subtractReversed 0x1 0x2),
      (0xB300, .jumpOffset 0x300), (0xC30F, .random 0x3 0x0F), (0xD125, .draw 0x1 0x2 0x5),
      (0xE5A1, .skipKeyNotPressed 0x5), (0xF215, .setDelay 0x2), (0xFE65, .loadRegs 0xE)] : List (Word × Instr)),
    decode p.1 = .valid p.2

/-! ### The cycle of the engine (40_engine_cycle.md, 60_exceptions.md) -/

/-- The fetch is big-endian (R62): the byte at pc has the weight 256. -/
def Obligations.FetchIsBigEndian : Prop :=
  ∀ s : State, s.fetch.toNat =
    (s.readByte s.pc.toNat).toNat * 256 + (s.readByte (s.pc.toNat + 1)).toNat

/-- A step runs the decoded instruction (R121, R125, R126). With no other agent's access inside the cycle the step is the
instruction. With some (R73, R74; entries 8, 11, 12), it is the instruction, and then the keypad holds the key writes of the scan
and the renderer's record holds its reads, each of which saw the pixel writes made so far. -/
def Obligations.StepRunsDecodedInstruction : Prop :=
  (∀ (s : State) (i : Instr), s.engineMoves → s.canFetch → decode s.fetch = .valid i → step s = exec i s) ∧
  (∀ (s : State) (i : Instr) (scan : List ScanWrite) (reads : List MidRead) (rest : List Turn),
    s.turns = .engine scan reads :: rest → s.canFetch → decode s.fetch = .valid i →
    ∃ t u, exec i (s.onTurn scan rest) = .next t ∧ step s = .next u ∧ Landed s scan reads (s.pixelWrites i) t u)

/-- The stop request halts before anything else, a bad pc included, with no opcode in DIAG (R122, R236, R238; the sampling
point is the decision D20, the missing opcode D28), in the engine's plain turn and in one that stands in the list. -/
def Obligations.StopRequestHaltsFirst : Prop :=
  (∀ s : State, s.engineMoves → s.run = .running → s.stopReq = true →
    step s = .next (s.haltedWith .stopped none)) ∧
  (∀ (s : State) (scan : List ScanWrite) (reads : List MidRead) (rest : List Turn),
    s.turns = .engine scan reads :: rest → s.run = .running → s.stopReq = true →
    ∃ u, step s = .next u ∧ Landed s scan reads [] ((s.onTurn scan rest).haltedWith .stopped none) u)

/-- A pc that is odd, below 0x200 or above 0xFFE halts with OutOfBounds at the fetch and DIAG holds that pc and no opcode
(R64, R123, R149; the decision D3), in the engine's plain turn and in one that stands in the list. -/
def Obligations.IllegalPcHaltsAtFetch : Prop :=
  (∀ s : State, s.engineMoves → s.run = .running → s.stopReq = false →
    (s.pc.toNat % 2 = 1 ∨ s.pc.toNat < 0x200 ∨ 0xFFE < s.pc.toNat) →
    step s = .next (s.haltedWith .outOfBounds none)) ∧
  (∀ (s : State) (scan : List ScanWrite) (reads : List MidRead) (rest : List Turn),
    s.turns = .engine scan reads :: rest → s.run = .running → s.stopReq = false →
    (s.pc.toNat % 2 = 1 ∨ s.pc.toNat < 0x200 ∨ 0xFFE < s.pc.toNat) →
    ∃ u, step s = .next u ∧ Landed s scan reads [] ((s.onTurn scan rest).haltedWith .outOfBounds none) u)

/-- An invalid opcode, under both policies (R235), in the engine's plain turn and in one that stands in the list. -/
def Obligations.DecodeMissFollowsPolicy : Prop :=
  (∀ (s : State) (op : Word), s.engineMoves → s.canFetch → decode s.fetch = .invalidInstruction op →
    (s.cfg.invalidPolicy = .fatal → step s = .next (s.haltedWith .decodeMiss (some op))) ∧
    (s.cfg.invalidPolicy = .skip →
      step s = .next { s with log := s.log ++ [{ opcode := op, pc := s.pc }], pc := s.pc + 2 })) ∧
  (∀ (s : State) (op : Word) (scan : List ScanWrite) (reads : List MidRead) (rest : List Turn),
    s.turns = .engine scan reads :: rest → s.canFetch → decode s.fetch = .invalidInstruction op →
    (s.cfg.invalidPolicy = .fatal →
      ∃ u, step s = .next u ∧ Landed s scan reads [] ((s.onTurn scan rest).haltedWith .decodeMiss (some op)) u) ∧
    (s.cfg.invalidPolicy = .skip →
      ∃ u, step s = .next u ∧ Landed s scan reads []
        { s.onTurn scan rest with log := s.log ++ [{ opcode := op, pc := s.pc }], pc := s.pc + 2 } u))

/-- A halted engine has no step (R129): its turn ends in the model's fault `engineHalted`. -/
def Obligations.HaltedEngineHasNoStep : Prop :=
  ∀ s : State, s.run = .halted →
    (s.turns = [] → step s = .fault .engineHalted) ∧
    (∀ scan reads rest, s.turns = .engine scan reads :: rest → step s = .fault .engineHalted)

/-- Once Halted, no step changes the Store, FB, RUN, DIAG or LOG (R39, R242); timers, keys and the renderer's record may
still change (R129, R256). -/
def Obligations.HaltedStateIsFrozen : Prop :=
  ∀ s t : State, s.run = .halted → step s = .next t →
    SameExcept [.dt, .st, .key, .stopReq, .turns, .seen] s t

/-- A cycle that halts changes RUN and DIAG only (R127). Where accesses of other agents fall inside it, they land besides. -/
def Obligations.HaltingCycleChangesRunAndDiagOnly : Prop :=
  (∀ s t : State, s.engineMoves → s.run = .running → step s = .next t → t.run = .halted →
    ∃ r op, r ≠ HaltReason.none ∧ t = s.haltedWith r op) ∧
  (∀ (s t : State) (scan : List ScanWrite) (reads : List MidRead) (rest : List Turn),
    s.turns = .engine scan reads :: rest → s.run = .running → step s = .next t → t.run = .halted →
    ∃ r op, r ≠ HaltReason.none ∧ Landed s scan reads [] ((s.onTurn scan rest).haltedWith r op) t)

/-- Which instruction halts, exactly when, and what DIAG holds (R231 to R234, R240; the check of the whole range is the decision
D12). DIAG's opcode is the instruction's encoding, which for these six is the opcode fetched. -/
def Obligations.InstructionHaltsExactly : Prop :=
  ∀ (s t : State) (i : Instr), s.run = .running → exec i s = .next t →
    (t.run = .halted ↔
      (i = .returnFromSubroutine ∧ s.sp.val = 0) ∨
      ((∃ nnn, i = .call nnn) ∧ s.sp.val = 16) ∨
      (∃ x y n, i = .draw x y n ∧ 0 < n.toNat ∧ 4096 ≤ s.i.toNat + n.toNat - 1) ∨
      (∃ x, i = .storeBcd x ∧ 4096 ≤ s.i.toNat + 2) ∨
      (∃ x, i = .storeRegs x ∧ 4096 ≤ s.i.toNat + x.toNat) ∨
      (∃ x, i = .loadRegs x ∧ 4096 ≤ s.i.toNat + x.toNat)) ∧
    (t.run = .halted →
      t.diag.pc = s.pc ∧ t.diag.opcodeValid = true ∧ t.diag.opcode = i.encode ∧
      (decode s.fetch = .valid i → t.diag.opcode = s.fetch) ∧
      (i = .returnFromSubroutine → t.diag.reason = .stackUnderflow) ∧
      (∀ nnn, i = .call nnn → t.diag.reason = .stackOverflow) ∧
      (i ≠ .returnFromSubroutine → (∀ nnn, i ≠ .call nnn) → t.diag.reason = .outOfBounds))

/-- Every instruction has an effect in every state: none faults and none is refused (R96, R126; every halt is a next state, entry
15). -/
def Obligations.EveryInstructionAnswersNextState : Prop :=
  ∀ (i : Instr) (s : State), ∃ t, exec i s = .next t

/-- What the pc is after a cycle, instruction by instruction, on natural numbers (R25). A key read by `LD Vx, K` is the keypad
as that read of the scan sees it; none of another agent's accesses falls inside this cycle. -/
def Obligations.PcAfterCycle : Prop :=
  ∀ s t : State, s.engineMoves → s.canFetch → step s = .next t →
    match decode s.fetch with
    | .valid (.jump nnn) => t.pc.toNat = nnn.toNat
    | .valid (.jumpOffset nnn) => t.pc.toNat = nnn.toNat + (s.getV 0).toNat
    | .valid (.call nnn) => if s.sp.val = 16 then t.pc = s.pc else t.pc.toNat = nnn.toNat
    | .valid .returnFromSubroutine =>
      if h : s.sp.val = 0 then t.pc = s.pc else t.pc = s.stack[s.sp.val - 1]
    | .valid (.skipEqImm x kk) => t.pc.toNat = s.pc.toNat + if s.getV x = kk then 4 else 2
    | .valid (.skipNeqImm x kk) => t.pc.toNat = s.pc.toNat + if s.getV x ≠ kk then 4 else 2
    | .valid (.skipEqReg x y) => t.pc.toNat = s.pc.toNat + if s.getV x = s.getV y then 4 else 2
    | .valid (.skipNeqReg x y) => t.pc.toNat = s.pc.toNat + if s.getV x ≠ s.getV y then 4 else 2
    | .valid (.skipKeyPressed x) =>
      t.pc.toNat = s.pc.toNat + if keyAt s.key ((s.getV x).extractLsb' 0 4) = .pressed then 4 else 2
    | .valid (.skipKeyNotPressed x) =>
      t.pc.toNat = s.pc.toNat + if keyAt s.key ((s.getV x).extractLsb' 0 4) = .released then 4 else 2
    | .valid (.waitKey _) =>
      if ∀ k : Fin 16, s.key[k] = .released then t.pc = s.pc else t.pc.toNat = s.pc.toNat + 2
    | .invalidInstruction _ =>
      match s.cfg.invalidPolicy with
      | .skip => t.pc.toNat = s.pc.toNat + 2
      | .fatal => t.pc = s.pc ∧ t.run = .halted
    | _ => if t.run = .halted then t.pc = s.pc else t.pc.toNat = s.pc.toNat + 2

/-! ### Whole-machine rules -/

/-- What no instruction changes, and what only the named instructions change (R22 to R32, R38, R83; the framebuffer by `CLS` and
`DRW`, the stack by `CALL` and `RET`, RAM by `LD B` and `LD [I]`, and so on). -/
def Obligations.OnlyNamedInstructionsWrite : Prop :=
  ∀ (i : Instr) (s t : State), exec i s = .next t →
    SameExcept [.v, .i, .pc, .stack, .ram, .dt, .st, .fb, .run, .diag, .draws] s t ∧
    ((¬ ∃ nnn, i = .call nnn) → i ≠ .returnFromSubroutine → Agree s t .stack) ∧
    ((¬ ∃ x, i = .storeBcd x ∨ i = .storeRegs x) → Agree s t .ram) ∧
    ((¬ ∃ x, i = .setDelay x) → Agree s t .dt) ∧
    ((¬ ∃ x, i = .setSound x) → Agree s t .st) ∧
    ((¬ ∃ x y n, i = .draw x y n) → i ≠ .clearDisplay → Agree s t .fb) ∧
    ((¬ ∃ nnn, i = .loadIndex nnn) → (¬ ∃ x, i = .addIndex x ∨ i = .loadFont x) → Agree s t .i)

/-- VF changes only by the six flag-writing instructions and by instructions that name it as destination; what the six write
into it, when it is not also their destination, is 0 or 1 (R22). That `DRW` keeps VF when its sprite leaves RAM is R66 and R192
with the decision D12 (entry 29), that it writes VF for n = 0 the decision D13 (entry 30), and that the logic operations keep it
the decision D9 (entry 26). -/
def Obligations.FlagRegisterRule : Prop :=
  ∀ (i : Instr) (s t : State), exec i s = .next t →
    match i with
    | .addWithCarry x _ | .subtract x _ | .subtractReversed x _ | .shiftRight x | .shiftLeft x =>
      x ≠ 0xF → t.getV 0xF = 0 ∨ t.getV 0xF = 1
    | .draw _ _ n =>
      if n.toNat = 0 ∨ s.i.toNat + n.toNat - 1 < 4096 then t.getV 0xF = 0 ∨ t.getV 0xF = 1
      else t.getV 0xF = s.getV 0xF
    | .loadImm x _ | .addImm x _ | .move x _ | .or x _ | .and x _ | .xor x _ | .random x _ | .readDelay x |
      .waitKey x | .loadRegs x => x ≠ 0xF → t.getV 0xF = s.getV 0xF
    | _ => t.getV 0xF = s.getV 0xF

/-- THE INVARIANT: every step of every agent keeps the bounds of R39, the link between RUN and DIAG (R33), the meaning of a LOG
entry (R34), and the canonical forms of RAM and the framebuffer (entries 4, 14). -/
def Obligations.StepKeepsInvariant : Prop :=
  ∀ s t : State, s.Inv → step s = .next t → t.Inv

/-- The state after reset meets the invariant (R39, R40). It is a state of the model's reference configuration (entry 2). -/
def Obligations.ResetMeetsInvariant : Prop :=
  State.reset.Inv

/-- No step changes the configuration (R35); LOG only grows (R34); a raised stop request stays raised (R122), and no step but the
host's raises it (R237, R267). -/
def Obligations.ConfigFixedLogGrowsStopStays : Prop :=
  ∀ s t : State, step s = .next t →
    t.cfg = s.cfg ∧ (∃ more, t.log = s.log ++ more) ∧ (s.stopReq = true → t.stopReq = true) ∧
    ((∀ rest, s.turns ≠ .raiseStop :: rest) → t.stopReq = s.stopReq)

/-- Reset (R40, R281, R283): it refuses a bad configuration and an image that does not fit, and else constructs the state of the
table, with the image from 0x200 in order and the font at its base. The refusal of a grid without a column or a row is U1, that of
a long image D25, and that of a font that is not 80 bytes wholly below 0x200 is THIS MODEL'S OWN choice (entry 35). The zero values
are the spec's decision D18, the font's place D17; the inputs' values are this model's (entries 8 to 13). -/
def Obligations.ResetConstructsTheTableState : Prop :=
  ∀ (c : Config) (rom : List Byte),
    (c.wf = false → State.construct c rom = .error .badConfiguration) ∧
    (c.wf = true → 3584 < rom.length → State.construct c rom = .error .imageTooLong) ∧
    (c.wf = true → rom.length ≤ 3584 → ∃ s, State.construct c rom = .ok s ∧ s.Inv ∧ s.cfg = c ∧
      (∀ r, s.getV r = 0) ∧ s.i = 0 ∧ s.pc = 0x0200 ∧ s.sp.val = 0 ∧ (∀ k : Fin 16, s.stack[k] = 0) ∧
      (∀ a, s.readByte a =
        if 0x200 ≤ a ∧ a < 0x200 + rom.length then rom.getD (a - 0x200) 0
        else if c.fontBase ≤ a ∧ a < c.fontBase + 80 then c.font.getD (a - c.fontBase) 0 else 0) ∧
      s.dt = 0 ∧ s.st = 0 ∧ (∀ x y, s.getPixel x y = false) ∧ (∀ k, keyAt s.key k = .released) ∧
      s.run = .running ∧ s.diag = { reason := .none, pc := 0, opcodeValid := false, opcode := 0 } ∧ s.log = [] ∧
      s.engineMoves ∧ s.stopReq = false ∧ s.seen = [] ∧ s.draws = 0)

/-! ### The other agents (60_exceptions.md) -/

/-- A tick of either counter, while the timers have not stopped: down by one when above zero, no effect at zero, and nothing
else changes but whose turn it is (R251). While Running that is R251; in a state halted for another reason than Stopped, where
R256 and U9 leave the counters open, it is the decision D30 (entry 21). -/
def Obligations.TickStep : Prop :=
  ∀ (s : State) (rest : List Turn), s.timersStopped = false →
    (s.turns = .delayTick :: rest →
      step s = .next { s with turns := rest, dt := if 0 < s.dt.toNat then s.dt - 1 else s.dt }) ∧
    (s.turns = .soundTick :: rest →
      step s = .next { s with turns := rest, st := if 0 < s.st.toNat then s.st - 1 else s.st })

/-- After a halt with Stopped a tick has no effect (R256). -/
def Obligations.TimersStopWithStopped : Prop :=
  ∀ (s : State) (rest : List Turn), s.run = .halted → s.diag.reason = .stopped →
    s.turns = .delayTick :: rest ∨ s.turns = .soundTick :: rest → step s = .next { s with turns := rest }

/-- After k ticks and no write, a counter that held v holds max(v - k, 0) (R257). In a state halted for another reason than Stopped,
where R256 and U9 leave the counters open, the count is the decision D30 (entry 21). -/
def Obligations.TicksCountDownToZero : Prop :=
  ∀ (k : Nat) (s : State), s.timersStopped = false →
    (s.turns = List.replicate k .delayTick →
      ∃ t, Sys2Proof.core.run k s = .next t ∧ t.dt.toNat = s.dt.toNat - k ∧ SameExcept [.dt, .turns] s t) ∧
    (s.turns = List.replicate k .soundTick →
      ∃ t, Sys2Proof.core.run k s = .next t ∧ t.st.toNat = s.st.toNat - k ∧ SameExcept [.st, .turns] s t)

/-- A timer rises by no step but an engine's that executes the instruction writing it (R28, R29, R75 (c), R257), and then it holds
the register: where DT rises, it is the engine's turn, the cycle reaches the fetch and the opcode is `LD DT, Vx`; so ST with
`LD ST, Vx`. -/
def Obligations.TimersRiseOnlyByWrite : Prop :=
  ∀ s t : State, step s = .next t →
    (s.dt.toNat < t.dt.toNat →
      s.engineNext ∧ s.canFetch ∧ ∃ x, decode s.fetch = .valid (.setDelay x) ∧ t.dt = s.getV x) ∧
    (s.st.toNat < t.st.toNat →
      s.engineNext ∧ s.canFetch ∧ ∃ x, decode s.fetch = .valid (.setSound x) ∧ t.st = s.getV x)

/-- The keypad changes only by the input source (R31, R260, R266): its own step writes one slot, and a step in which it makes no
write leaves every slot as it was. -/
def Obligations.KeysChangeOnlyByInputSource : Prop :=
  (∀ (s : State) (k : Nibble) (ks : KeyState) (rest : List Turn), s.turns = .setKey k ks :: rest →
    ∃ t, step s = .next t ∧ (∀ j, keyAt t.key j = if j = k then ks else keyAt s.key j) ∧
      t.turns = rest ∧ SameExcept [.key, .turns] s t) ∧
  (∀ s t : State, s.scanWrites = [] → (∀ k ks rest, s.turns ≠ .setKey k ks :: rest) →
    (∀ w ws reads rest, s.turns ≠ .engine (w :: ws) reads :: rest) → step s = .next t → t.key = s.key)

/-- The renderer's step answers the pixel at the wrapped coordinates and changes nothing but the record of what it saw (R261,
R265; the record is this model's, entry 12). -/
def Obligations.RendererReadsAndChangesNothing : Prop :=
  ∀ (s : State) (x y : Nat) (rest : List Turn), s.cfg.wf = true → s.turns = .getPixel x y :: rest →
    ∃ t, step s = .next t ∧
      t.seen = s.seen ++ [{ x := x, y := y, lit := s.getPixel (x % s.cfg.fbW) (y % s.cfg.fbH) }] ∧
      t.turns = rest ∧ SameExcept [.turns, .seen] s t

/-- What the renderer has seen affects no other agent: two states that differ only in that record step alike (R265). -/
def Obligations.RendererDoesNotInterfere : Prop :=
  ∀ (s : State) (l : List PixelSeen),
    onNext (step { s with seen := l }) (fun t => { t with seen := [] }) =
      onNext (step s) (fun t => { t with seen := [] })

/-- Nothing outside the engine redirects its control flow (R237, R267, R268): a turn of another agent takes itself off the list and
changes besides at most a timer, a key, the stop request and the renderer's record; the host's turn raises the stop request and
does nothing else, and no other agent's touches it. -/
def Obligations.OtherAgentsDoNotRedirect : Prop :=
  (∀ s t : State, s.turns ≠ [] → (∀ scan reads rest, s.turns ≠ .engine scan reads :: rest) → step s = .next t →
    t.turns = s.turns.tail ∧ SameExcept [.dt, .st, .key, .stopReq, .turns, .seen] s t ∧
    ((∀ rest, s.turns ≠ .raiseStop :: rest) → t.stopReq = s.stopReq)) ∧
  (∀ (s : State) (rest : List Turn), s.turns = .raiseStop :: rest →
    step s = .next { s with turns := rest, stopReq := true })

/-- The `SetPixel` calls an instruction makes, which the renderer may observe one by one (R73, R74; their order is the decision
D29). What `CLS` does, rows ascending, is the spec's general knowledge and its decision D27 (G4, entry 31); the order of the bits
of `DRW`, bit 7 leftmost, is D13 (G7, entry 30), and that a sprite that leaves RAM makes no call is D12 (entry 29). All of them
leave the framebuffer the instruction leaves. After the first k of `CLS` the cells before the k-th, rows ascending, are unset and
the others as before (R191); after the first k of `DRW` with its sprite inside RAM the first k set bits of the sprite have been
drawn (R192). No other instruction makes one, nor does a `DRW` that halts. -/
def Obligations.PixelWritesMakeTheFramebuffer : Prop :=
  (∀ (i : Instr) (s t : State) (x y : Nat), s.Inv → exec i s = .next t →
    (s.fb.setAll s.cfg (s.pixelWrites i)).get s.cfg x y = t.getPixel x y) ∧
  (∀ (s : State) (a b k : Nat), s.cfg.wf = true →
    (s.fb.setAll s.cfg ((s.pixelWrites .clearDisplay).take k)).get s.cfg a b =
      (s.getPixel a b && decide (k ≤ (b % s.cfg.fbH) * s.cfg.fbW + a % s.cfg.fbW))) ∧
  (∀ (x y n : Nibble) (s : State) (a b k : Nat), s.cfg.wf = true → n.toNat = 0 ∨ s.i.toNat + n.toNat - 1 < 4096 →
    (s.fb.setAll s.cfg ((s.pixelWrites (.draw x y n)).take k)).get s.cfg a b =
      (s.getPixel a b ^^ decide (hitsOn s.cfg a b ((spriteHits s x y n).take k) % 2 = 1))) ∧
  (∀ (i : Instr) (s : State), i ≠ .clearDisplay →
    (∀ x y n, i = .draw x y n → 0 < n.toNat ∧ 4096 ≤ s.i.toNat + n.toNat - 1) → s.pixelWrites i = [])

/-! ### Control flow (41_control_flow.md) -/

/-- `RET` (R141): it pops and jumps, or halts with StackUnderflow on an empty stack. The vacated slot keeps its value. -/
def Obligations.ReturnPopsAndJumps : Prop :=
  ∀ s : State,
    (∀ h : 0 < s.sp.val, ∃ t, exec .returnFromSubroutine s = .next t ∧ t.pc = s.stack[s.sp.val - 1] ∧
      t.sp.val = s.sp.val - 1 ∧ t.stack = s.stack ∧ SameExcept [.pc, .stack] s t) ∧
    (s.sp.val = 0 → exec .returnFromSubroutine s = .next (s.haltedWith .stackUnderflow (some 0x00EE)))

/-- `JP nnn` (R142): the pc becomes the address, unchecked, and nothing else changes; a target that is odd or below 0x200 halts
the next cycle with OutOfBounds, and DIAG names the target. -/
def Obligations.JumpSetsPc : Prop :=
  ∀ (nnn : Addr) (s : State), decode (formatNNN 0x1 nnn) = .valid (.jump nnn) ∧
    ∃ t, exec (.jump nnn) s = .next t ∧ t.pc.toNat = nnn.toNat ∧ SameExcept [.pc] s t ∧
      (s.engineMoves → s.run = .running → s.stopReq = false → nnn.toNat % 2 = 1 ∨ nnn.toNat < 0x200 →
        ∃ u, step t = .next u ∧ u.run = .halted ∧ u.diag.reason = .outOfBounds ∧ u.diag.pc.toNat = nnn.toNat)

/-- `CALL nnn` (R143): it pushes the address of the next instruction and jumps, or halts with StackOverflow when sixteen entries
are live. -/
def Obligations.CallPushesAndJumps : Prop :=
  ∀ (nnn : Addr) (s : State),
    (∀ h : s.sp.val < 16, ∃ t, exec (.call nnn) s = .next t ∧ t.pc.toNat = nnn.toNat ∧
      t.sp.val = s.sp.val + 1 ∧ t.stack[s.sp.val] = s.pc + 2 ∧
      (∀ k : Fin 16, k.val ≠ s.sp.val → t.stack[k] = s.stack[k]) ∧ SameExcept [.pc, .stack] s t) ∧
    (s.sp.val = 16 → exec (.call nnn) s = .next (s.haltedWith .stackOverflow (some (formatNNN 0x2 nnn))))

/-- A `RET` right after a `CALL` resumes at the instruction after the `CALL` with the stack as deep as before and its live
entries as before (R141, R143, R150). -/
def Obligations.CallThenReturnResumes : Prop :=
  ∀ (nnn : Addr) (s : State), s.sp.val < 16 →
    ∃ t u, exec (.call nnn) s = .next t ∧ exec .returnFromSubroutine t = .next u ∧
      u.pc = s.pc + 2 ∧ u.sp = s.sp ∧ (∀ k : Fin 16, k.val < s.sp.val → u.stack[k] = s.stack[k]) ∧
      SameExcept [.pc, .stack] s u

/-- `SE Vx, kk` and `SNE Vx, kk` (R144, R145). -/
def Obligations.SkipsOnImmediate : Prop :=
  ∀ (x : Nibble) (kk : Byte) (s : State),
    (∃ t, exec (.skipEqImm x kk) s = .next t ∧
      t.pc = s.pc + (if (s.getV x).toNat = kk.toNat then 4 else 2) ∧ SameExcept [.pc] s t) ∧
    (∃ t, exec (.skipNeqImm x kk) s = .next t ∧
      t.pc = s.pc + (if (s.getV x).toNat = kk.toNat then 2 else 4) ∧ SameExcept [.pc] s t)

/-- `SE Vx, Vy` and `SNE Vx, Vy` (R146, R147). -/
def Obligations.SkipsOnRegister : Prop :=
  ∀ (x y : Nibble) (s : State),
    (∃ t, exec (.skipEqReg x y) s = .next t ∧
      t.pc = s.pc + (if (s.getV x).toNat = (s.getV y).toNat then 4 else 2) ∧ SameExcept [.pc] s t) ∧
    (∃ t, exec (.skipNeqReg x y) s = .next t ∧
      t.pc = s.pc + (if (s.getV x).toNat = (s.getV y).toNat then 2 else 4) ∧ SameExcept [.pc] s t)

/-- `JP V0, nnn` (R148): the sum is of natural numbers, not masked. That the instruction exists is the decision D31 (entry 7). -/
def Obligations.JumpOffsetAddsV0 : Prop :=
  ∀ (nnn : Addr) (s : State), ∃ t, exec (.jumpOffset nnn) s = .next t ∧
    t.pc.toNat = nnn.toNat + (s.getV 0).toNat ∧ SameExcept [.pc] s t

/-- A settled state stays as it is in every later cycle, as long as no other agent moves (R131). -/
def Obligations.SettledStateStays : Prop :=
  ∀ (s : State) (a : Word) (k : Nat), s.settledAt a → s.pcLegal = true → s.engineMoves → s.stopReq = false →
    Sys2Proof.core.run k s = .next s

/-! ### Moves, arithmetic, logic, shifts, random (42_alu.md) -/

/-- `LD Vx, kk`, `ADD Vx, kk`, `LD Vx, Vy` (R161 to R163): no flag. -/
def Obligations.MovesAndAddImmediate : Prop :=
  ∀ (x y : Nibble) (kk : Byte) (s : State),
    (∃ t, exec (.loadImm x kk) s = .next t ∧ (∀ r, t.getV r = if r = x then kk else s.getV r) ∧
      t.pc = s.pc + 2 ∧ SameExcept [.v, .pc] s t) ∧
    (∃ t, exec (.addImm x kk) s = .next t ∧ (t.getV x).toNat = ((s.getV x).toNat + kk.toNat) % 256 ∧
      (∀ r, r ≠ x → t.getV r = s.getV r) ∧ t.pc = s.pc + 2 ∧ SameExcept [.v, .pc] s t) ∧
    (∃ t, exec (.move x y) s = .next t ∧ (∀ r, t.getV r = if r = x then s.getV y else s.getV r) ∧
      t.pc = s.pc + 2 ∧ SameExcept [.v, .pc] s t)

/-- `OR`, `AND`, `XOR` (R164 to R166), bit by bit. VF is not written (the decision D9). -/
def Obligations.LogicBitwise : Prop :=
  ∀ (x y : Nibble) (s : State),
    (∃ t, exec (.or x y) s = .next t ∧
      (∀ b, (t.getV x).getLsbD b = ((s.getV x).getLsbD b || (s.getV y).getLsbD b)) ∧
      (∀ r, r ≠ x → t.getV r = s.getV r) ∧ t.pc = s.pc + 2 ∧ SameExcept [.v, .pc] s t) ∧
    (∃ t, exec (.and x y) s = .next t ∧
      (∀ b, (t.getV x).getLsbD b = ((s.getV x).getLsbD b && (s.getV y).getLsbD b)) ∧
      (∀ r, r ≠ x → t.getV r = s.getV r) ∧ t.pc = s.pc + 2 ∧ SameExcept [.v, .pc] s t) ∧
    (∃ t, exec (.xor x y) s = .next t ∧
      (∀ b, (t.getV x).getLsbD b = ((s.getV x).getLsbD b ^^ (s.getV y).getLsbD b)) ∧
      (∀ r, r ≠ x → t.getV r = s.getV r) ∧ t.pc = s.pc + 2 ∧ SameExcept [.v, .pc] s t)

/-- `ADD Vx, Vy` (R167): its encoding, the wrapped sum, and the carry. With x = 0xF the sum stays in VF. -/
def Obligations.AddWithCarryResult : Prop :=
  ∀ (x y : Nibble) (s : State), decode (formatXYN 0x8 x y 0x4) = .valid (.addWithCarry x y) ∧
    ∃ t, exec (.addWithCarry x y) s = .next t ∧
      (t.getV x).toNat = ((s.getV x).toNat + (s.getV y).toNat) % 256 ∧
      (x ≠ 0xF → (t.getV 0xF).toNat = if (s.getV x).toNat + (s.getV y).toNat > 255 then 1 else 0) ∧
      (∀ r, r ≠ x → r ≠ 0xF → t.getV r = s.getV r) ∧ t.pc = s.pc + 2 ∧ SameExcept [.v, .pc] s t

/-- `SUB Vx, Vy` and `SUBN Vx, Vy` (R168, R170): the wrapped difference and the no-borrow flag. With x = 0xF the difference stays
in VF (the decision D7); the destination of `SUBN` is general knowledge and the decision D26 (G6, entry 32). -/
def Obligations.SubtractResults : Prop :=
  ∀ (x y : Nibble) (s : State),
    (∃ t, exec (.subtract x y) s = .next t ∧
      (t.getV x).toNat = (256 + (s.getV x).toNat - (s.getV y).toNat) % 256 ∧
      (x ≠ 0xF → (t.getV 0xF).toNat = if (s.getV x).toNat ≥ (s.getV y).toNat then 1 else 0) ∧
      (∀ r, r ≠ x → r ≠ 0xF → t.getV r = s.getV r) ∧ t.pc = s.pc + 2 ∧ SameExcept [.v, .pc] s t) ∧
    (∃ t, exec (.subtractReversed x y) s = .next t ∧
      (t.getV x).toNat = (256 + (s.getV y).toNat - (s.getV x).toNat) % 256 ∧
      (x ≠ 0xF → (t.getV 0xF).toNat = if (s.getV y).toNat ≥ (s.getV x).toNat then 1 else 0) ∧
      (∀ r, r ≠ x → r ≠ 0xF → t.getV r = s.getV r) ∧ t.pc = s.pc + 2 ∧ SameExcept [.v, .pc] s t)

/-- `SHR Vx` and `SHL Vx` (R169, R171): `V[x]` in place (the decision D8), the bit shifted out in VF unless x = 0xF (D7). -/
def Obligations.ShiftResults : Prop :=
  ∀ (x : Nibble) (s : State),
    (∃ t, exec (.shiftRight x) s = .next t ∧ (t.getV x).toNat = (s.getV x).toNat / 2 ∧
      (x ≠ 0xF → (t.getV 0xF).toNat = (s.getV x).toNat % 2) ∧
      (∀ r, r ≠ x → r ≠ 0xF → t.getV r = s.getV r) ∧ t.pc = s.pc + 2 ∧ SameExcept [.v, .pc] s t) ∧
    (∃ t, exec (.shiftLeft x) s = .next t ∧ (t.getV x).toNat = (s.getV x).toNat * 2 % 256 ∧
      (x ≠ 0xF → (t.getV 0xF).toNat = (s.getV x).toNat / 128) ∧
      (∀ r, r ≠ x → r ≠ 0xF → t.getV r = s.getV r) ∧ t.pc = s.pc + 2 ∧ SameExcept [.v, .pc] s t)

/-- `RND Vx, kk` (R181), for every value of the free byte (entry 9): the byte masked by kk, one fresh draw, so no bit outside kk
is set, kk = 0x00 gives 0x00 and kk = 0xFF gives the draw. -/
def Obligations.RandomIsMaskedDraw : Prop :=
  ∀ (x : Nibble) (kk : Byte) (s : State), ∃ t, exec (.random x kk) s = .next t ∧
    (∀ r, t.getV r = if r = x then Config.drawByte s.draws &&& kk else s.getV r) ∧
    t.getV x &&& ~~~kk = 0 ∧ (kk = 0x00 → t.getV x = 0x00) ∧ (kk = 0xFF → t.getV x = Config.drawByte s.draws) ∧
    t.draws = s.draws + 1 ∧ t.pc = s.pc + 2 ∧ SameExcept [.v, .pc, .draws] s t

/-! ### Display and keypad (43_display_keys.md) -/

/-- `CLS` (R191; its operation is general knowledge and the decision D27, G4, entry 31): every pixel is unset; VF and all else
stay. -/
def Obligations.ClearDisplayUnsetsEveryPixel : Prop :=
  ∀ s : State, ∃ t, exec .clearDisplay s = .next t ∧ (∀ x y, t.getPixel x y = false) ∧
    t.pc = s.pc + 2 ∧ SameExcept [.fb, .pc] s t

/-- `DRW Vx, Vy, n` (R192) on every grid: a pixel is inverted once for each set sprite bit that wraps onto it; VF is 1 when some
set bit met a lit pixel, the bits before it having been drawn, else 0. A sprite not wholly inside RAM halts with nothing drawn
(D12, entry 29). Bit order (general knowledge, G7), n = 0 and the order on small grids are the decision D13 (entry 30). -/
def Obligations.DrawXorsSprite : Prop :=
  ∀ (x y n : Nibble) (s : State),
    (s.cfg.wf = true → n.toNat = 0 ∨ s.i.toNat + n.toNat - 1 < 4096 →
      ∃ t, exec (.draw x y n) s = .next t ∧
        (∀ a b, t.getPixel a b = (s.getPixel a b ^^ decide (hitsOn s.cfg a b (spriteHits s x y n) % 2 = 1))) ∧
        (∀ r, r ≠ 0xF → t.getV r = s.getV r) ∧
        (t.getV 0xF = 0 ∨ t.getV 0xF = 1) ∧
        (t.getV 0xF = 1 ↔ ∃ before p after, spriteHits s x y n = before ++ p :: after ∧
          (s.getPixel p.1 p.2 ^^ decide (hitsOn s.cfg p.1 p.2 before % 2 = 1)) = true) ∧
        t.pc = s.pc + 2 ∧ SameExcept [.v, .fb, .pc] s t) ∧
    (0 < n.toNat → 4096 ≤ s.i.toNat + n.toNat - 1 →
      exec (.draw x y n) s = .next (s.haltedWith .outOfBounds (some (formatXYN 0xD x y n))))

/-- Drawing one sprite twice at coordinates not held in VF restores the framebuffer (R193). When the grid is large enough for no
cell to be touched twice and every touched pixel was unset, the first draw's flag is 0 and the second's is 1 exactly when the
sprite has a set bit. -/
def Obligations.DrawTwiceRestores : Prop :=
  ∀ (x y n : Nibble) (s : State), s.cfg.wf = true → x ≠ 0xF → y ≠ 0xF →
    n.toNat = 0 ∨ s.i.toNat + n.toNat - 1 < 4096 →
    ∃ t u, exec (.draw x y n) s = .next t ∧ exec (.draw x y n) t = .next u ∧
      (∀ a b, u.getPixel a b = s.getPixel a b) ∧
      (8 ≤ s.cfg.fbW → 15 ≤ s.cfg.fbH → (∀ p ∈ spriteHits s x y n, s.getPixel p.1 p.2 = false) →
        t.getV 0xF = 0 ∧ u.getV 0xF = if spriteHits s x y n = [] then 0 else 1)

/-- `SKP Vx` and `SKNP Vx` (R194, R195): the low nibble of the register selects the key. -/
def Obligations.SkipsOnKey : Prop :=
  ∀ (x k : Nibble) (s : State), k.toNat = (s.getV x).toNat % 16 →
    (∃ t, exec (.skipKeyPressed x) s = .next t ∧
      t.pc = s.pc + (if keyAt s.key k = .pressed then 4 else 2) ∧ SameExcept [.pc] s t) ∧
    (∃ t, exec (.skipKeyNotPressed x) s = .next t ∧
      t.pc = s.pc + (if keyAt s.key k = .pressed then 2 else 4) ∧ SameExcept [.pc] s t)

/-- `LD Vx, K` (R196 to R198; D16), one poll, for every choice the free value can make (entry 10): with no key read Pressed nothing
changes; else the id of some key read Pressed is stored. `keyAfter s.scanWrites s.key k.toNat k` is key k as the k-th read of the
scan sees it: what the last write to it that lands before a read up to the k-th gave it, else what KEY holds, and so never what a
later write gives it (R73, U16, entry 11). With no write inside the scan that is KEY itself. -/
def Obligations.WaitKeyStoresPressedKey : Prop :=
  ∀ (x : Nibble) (s : State),
    ((∀ k : Nibble, keyAfter s.scanWrites s.key k.toNat k = .released) →
      exec (.waitKey x) s = .next s) ∧
    ((∃ k : Nibble, keyAfter s.scanWrites s.key k.toNat k = .pressed) →
      ∃ t, ∃ k : Nibble, exec (.waitKey x) s = .next t ∧
        keyAfter s.scanWrites s.key k.toNat k = .pressed ∧
        (s.scanWrites = [] → keyAt s.key k = .pressed) ∧
        (t.getV x).toNat = k.toNat ∧ (∀ r, r ≠ x → t.getV r = s.getV r) ∧
        t.pc = s.pc + 2 ∧ SameExcept [.v, .pc, .draws] s t)

/-! ### Timers, address register, memory (44_timers_index_memory.md) -/

/-- `LD Vx, DT`, `LD DT, Vx`, `LD ST, Vx` (R211 to R213). -/
def Obligations.TimerReadsAndWrites : Prop :=
  ∀ (x : Nibble) (s : State),
    (∃ t, exec (.readDelay x) s = .next t ∧ (∀ r, t.getV r = if r = x then s.dt else s.getV r) ∧
      t.pc = s.pc + 2 ∧ SameExcept [.v, .pc] s t) ∧
    (∃ t, exec (.setDelay x) s = .next t ∧ t.dt = s.getV x ∧ t.pc = s.pc + 2 ∧ SameExcept [.dt, .pc] s t) ∧
    (∃ t, exec (.setSound x) s = .next t ∧ t.st = s.getV x ∧ t.pc = s.pc + 2 ∧ SameExcept [.st, .pc] s t)

/-- `LD I, nnn`, `ADD I, Vx`, `LD F, Vx` (R214 to R216): I, and no flag. The existence of the first is general knowledge and the
decision D32 (G2, entry 7), the wrap at 16 bits D11 (entry 28), the low nibble and the glyph address D17 (G5, entry 33); the glyph
address is stated for a configuration reset accepts. -/
def Obligations.IndexWrites : Prop :=
  ∀ (x : Nibble) (nnn : Addr) (s : State),
    (∃ t, exec (.loadIndex nnn) s = .next t ∧ t.i.toNat = nnn.toNat ∧ t.pc = s.pc + 2 ∧ SameExcept [.i, .pc] s t) ∧
    (∃ t, exec (.addIndex x) s = .next t ∧ t.i.toNat = (s.i.toNat + (s.getV x).toNat) % 65536 ∧
      t.pc = s.pc + 2 ∧ SameExcept [.i, .pc] s t) ∧
    (∃ t, exec (.loadFont x) s = .next t ∧
      (s.cfg.wf = true → t.i.toNat = s.cfg.fontBase + 5 * ((s.getV x).toNat % 16)) ∧
      t.pc = s.pc + 2 ∧ SameExcept [.i, .pc] s t)

/-- `LD B, Vx` (R217): the three decimal digits to the three bytes from I, every other byte of memory as before; or a halt with
nothing written when they do not all lie in RAM (D12). The memory is in its canonical form, which the invariant gives. -/
def Obligations.StoreBcdDigits : Prop :=
  ∀ (x : Nibble) (s : State),
    (Memory.wf (resetByte s.cfg) s.ram → s.i.toNat + 2 < 4096 →
      ∃ t, exec (.storeBcd x) s = .next t ∧
        (t.readByte s.i.toNat).toNat = (s.getV x).toNat / 100 ∧
        (t.readByte (s.i.toNat + 1)).toNat = (s.getV x).toNat / 10 % 10 ∧
        (t.readByte (s.i.toNat + 2)).toNat = (s.getV x).toNat % 10 ∧
        (∀ a, a < s.i.toNat ∨ s.i.toNat + 2 < a → t.readByte a = s.readByte a) ∧
        t.pc = s.pc + 2 ∧ SameExcept [.ram, .pc] s t) ∧
    (4096 ≤ s.i.toNat + 2 →
      exec (.storeBcd x) s = .next (s.haltedWith .outOfBounds (some (formatXKK 0xF x 0x33))))

/-- `LD [I], Vx` (R218): V0 to Vx to the bytes from I, every other byte of memory as before, I unchanged (D10); or a halt with
nothing written. -/
def Obligations.StoreRegsCopies : Prop :=
  ∀ (x : Nibble) (s : State),
    (Memory.wf (resetByte s.cfg) s.ram → s.i.toNat + x.toNat < 4096 →
      ∃ t, exec (.storeRegs x) s = .next t ∧
        (∀ r : Nibble, r.toNat ≤ x.toNat → t.readByte (s.i.toNat + r.toNat) = s.getV r) ∧
        (∀ a, a < s.i.toNat ∨ s.i.toNat + x.toNat < a → t.readByte a = s.readByte a) ∧
        t.pc = s.pc + 2 ∧ SameExcept [.ram, .pc] s t) ∧
    (4096 ≤ s.i.toNat + x.toNat →
      exec (.storeRegs x) s = .next (s.haltedWith .outOfBounds (some (formatXKK 0xF x 0x55))))

/-- `LD Vx, [I]` (R219): V0 to Vx from the bytes from I, the registers above unchanged, I unchanged (D10); or a halt with no
register written. -/
def Obligations.LoadRegsCopies : Prop :=
  ∀ (x : Nibble) (s : State),
    (s.i.toNat + x.toNat < 4096 →
      ∃ t, exec (.loadRegs x) s = .next t ∧
        (∀ r : Nibble, t.getV r = if r.toNat ≤ x.toNat then s.readByte (s.i.toNat + r.toNat) else s.getV r) ∧
        t.pc = s.pc + 2 ∧ SameExcept [.v, .pc] s t) ∧
    (4096 ≤ s.i.toNat + x.toNat →
      exec (.loadRegs x) s = .next (s.haltedWith .outOfBounds (some (formatXKK 0xF x 0x65))))

/-- Storing V0 to Vx and loading them back gives every register its value again (R218, R219, R70). -/
def Obligations.StoreThenLoadRestoresRegs : Prop :=
  ∀ (x : Nibble) (s s' : State), Memory.wf (resetByte s.cfg) s.ram → s.i.toNat + x.toNat < 4096 →
    (∃ t, exec (.storeRegs x) s = .next t ∧
      (s'.i = t.i → (∀ a, s'.readByte a = t.readByte a) →
        ∃ u, exec (.loadRegs x) s' = .next u ∧
          ∀ r : Nibble, u.getV r = if r.toNat ≤ x.toNat then s.getV r else s'.getV r))

/-- A store is seen by the very next fetch (R79): two registers stored right after the current instruction are the opcode fetched
next. -/
def Obligations.StoreSeenByNextFetch : Prop :=
  ∀ (x : Nibble) (s : State), Memory.wf (resetByte s.cfg) s.ram → 1 ≤ x.toNat → s.pc.toNat + 2 < 65536 →
    s.i.toNat = s.pc.toNat + 2 → s.i.toNat + x.toNat < 4096 →
    ∃ t, exec (.storeRegs x) s = .next t ∧ t.fetch = opcodeOf (s.getV 0) (s.getV 1)
end

