-- ==== Sys2Proof/Laws/State.lean ====
section
/-! SUPPORT. What each update of the state leaves alone and what it writes: one lemma an update, a conjunction that simp
splits into one rewrite a field, so that no later proof unfolds a record update. -/

namespace Sys2Proof.Machine

variable (s : State)

/-- What `setV` leaves unchanged. -/
@[simp] theorem State.setV_keeps (x : Nibble) (b : Byte) :
    (s.setV x b).cfg = s.cfg ∧ (s.setV x b).i = s.i ∧ (s.setV x b).pc = s.pc ∧ (s.setV x b).stack = s.stack ∧
    (s.setV x b).sp = s.sp ∧ (s.setV x b).ram = s.ram ∧ (s.setV x b).dt = s.dt ∧ (s.setV x b).st = s.st ∧
    (s.setV x b).fb = s.fb ∧ (s.setV x b).key = s.key ∧ (s.setV x b).run = s.run ∧ (s.setV x b).diag = s.diag ∧
    (s.setV x b).log = s.log ∧ (s.setV x b).stopReq = s.stopReq ∧ (s.setV x b).turns = s.turns ∧
    (s.setV x b).scanWrites = s.scanWrites ∧ (s.setV x b).seen = s.seen ∧ (s.setV x b).draws = s.draws ∧
    (∀ c, (s.setV x b).readByte c = s.readByte c) ∧ (∀ c d, (s.setV x b).getPixel c d = s.getPixel c d) :=
  ⟨rfl, rfl, rfl, rfl, rfl, rfl, rfl, rfl, rfl, rfl, rfl, rfl, rfl, rfl, rfl, rfl, rfl, rfl, fun _ => rfl,
   fun _ _ => rfl⟩

/-- What `setFlag` leaves unchanged. -/
@[simp] theorem State.setFlag_keeps (f : Bool) :
    (s.setFlag f).cfg = s.cfg ∧ (s.setFlag f).i = s.i ∧ (s.setFlag f).pc = s.pc ∧ (s.setFlag f).stack = s.stack ∧
    (s.setFlag f).sp = s.sp ∧ (s.setFlag f).ram = s.ram ∧ (s.setFlag f).dt = s.dt ∧ (s.setFlag f).st = s.st ∧
    (s.setFlag f).fb = s.fb ∧ (s.setFlag f).key = s.key ∧ (s.setFlag f).run = s.run ∧ (s.setFlag f).diag = s.diag ∧
    (s.setFlag f).log = s.log ∧ (s.setFlag f).stopReq = s.stopReq ∧ (s.setFlag f).turns = s.turns ∧
    (s.setFlag f).scanWrites = s.scanWrites ∧ (s.setFlag f).seen = s.seen ∧ (s.setFlag f).draws = s.draws ∧
    (∀ c, (s.setFlag f).readByte c = s.readByte c) ∧ (∀ c d, (s.setFlag f).getPixel c d = s.getPixel c d) :=
  ⟨rfl, rfl, rfl, rfl, rfl, rfl, rfl, rfl, rfl, rfl, rfl, rfl, rfl, rfl, rfl, rfl, rfl, rfl, fun _ => rfl,
   fun _ _ => rfl⟩

/-- What `setFlagThenV` leaves unchanged. -/
@[simp] theorem State.setFlagThenV_keeps (f : Bool) (x : Nibble) (b : Byte) :
    (s.setFlagThenV f x b).cfg = s.cfg ∧ (s.setFlagThenV f x b).i = s.i ∧ (s.setFlagThenV f x b).pc = s.pc ∧
    (s.setFlagThenV f x b).stack = s.stack ∧ (s.setFlagThenV f x b).sp = s.sp ∧ (s.setFlagThenV f x b).ram = s.ram ∧
    (s.setFlagThenV f x b).dt = s.dt ∧ (s.setFlagThenV f x b).st = s.st ∧ (s.setFlagThenV f x b).fb = s.fb ∧
    (s.setFlagThenV f x b).key = s.key ∧ (s.setFlagThenV f x b).run = s.run ∧ (s.setFlagThenV f x b).diag = s.diag ∧
    (s.setFlagThenV f x b).log = s.log ∧ (s.setFlagThenV f x b).stopReq = s.stopReq ∧
    (s.setFlagThenV f x b).turns = s.turns ∧ (s.setFlagThenV f x b).scanWrites = s.scanWrites ∧
    (s.setFlagThenV f x b).seen = s.seen ∧ (s.setFlagThenV f x b).draws = s.draws ∧
    (∀ c, (s.setFlagThenV f x b).readByte c = s.readByte c) ∧
    (∀ c d, (s.setFlagThenV f x b).getPixel c d = s.getPixel c d) :=
  ⟨rfl, rfl, rfl, rfl, rfl, rfl, rfl, rfl, rfl, rfl, rfl, rfl, rfl, rfl, rfl, rfl, rfl, rfl, fun _ => rfl,
   fun _ _ => rfl⟩

/-- What `setI` leaves unchanged. -/
@[simp] theorem State.setI_keeps (w : Word) :
    (s.setI w).cfg = s.cfg ∧ (s.setI w).v = s.v ∧ (s.setI w).pc = s.pc ∧ (s.setI w).stack = s.stack ∧
    (s.setI w).sp = s.sp ∧ (s.setI w).ram = s.ram ∧ (s.setI w).dt = s.dt ∧ (s.setI w).st = s.st ∧
    (s.setI w).fb = s.fb ∧ (s.setI w).key = s.key ∧ (s.setI w).run = s.run ∧ (s.setI w).diag = s.diag ∧
    (s.setI w).log = s.log ∧ (s.setI w).stopReq = s.stopReq ∧ (s.setI w).turns = s.turns ∧
    (s.setI w).scanWrites = s.scanWrites ∧ (s.setI w).seen = s.seen ∧ (s.setI w).draws = s.draws ∧
    (∀ z, (s.setI w).getV z = s.getV z) ∧ (∀ c, (s.setI w).readByte c = s.readByte c) ∧
    (∀ c d, (s.setI w).getPixel c d = s.getPixel c d) :=
  ⟨rfl, rfl, rfl, rfl, rfl, rfl, rfl, rfl, rfl, rfl, rfl, rfl, rfl, rfl, rfl, rfl, rfl, rfl, fun _ => rfl,
   fun _ => rfl, fun _ _ => rfl⟩

/-- What `setI` writes. -/
@[simp] theorem State.setI_writes (w : Word) :
    (s.setI w).i = w :=
  rfl

/-- What `writeBytes` leaves unchanged. -/
@[simp] theorem State.writeBytes_keeps (a : Nat) (bs : List Byte) :
    (s.writeBytes a bs).cfg = s.cfg ∧ (s.writeBytes a bs).v = s.v ∧ (s.writeBytes a bs).i = s.i ∧
    (s.writeBytes a bs).pc = s.pc ∧ (s.writeBytes a bs).stack = s.stack ∧ (s.writeBytes a bs).sp = s.sp ∧
    (s.writeBytes a bs).dt = s.dt ∧ (s.writeBytes a bs).st = s.st ∧ (s.writeBytes a bs).fb = s.fb ∧
    (s.writeBytes a bs).key = s.key ∧ (s.writeBytes a bs).run = s.run ∧ (s.writeBytes a bs).diag = s.diag ∧
    (s.writeBytes a bs).log = s.log ∧ (s.writeBytes a bs).stopReq = s.stopReq ∧ (s.writeBytes a bs).turns = s.turns ∧
    (s.writeBytes a bs).scanWrites = s.scanWrites ∧ (s.writeBytes a bs).seen = s.seen ∧
    (s.writeBytes a bs).draws = s.draws ∧ (∀ z, (s.writeBytes a bs).getV z = s.getV z) ∧
    (∀ c d, (s.writeBytes a bs).getPixel c d = s.getPixel c d) :=
  ⟨rfl, rfl, rfl, rfl, rfl, rfl, rfl, rfl, rfl, rfl, rfl, rfl, rfl, rfl, rfl, rfl, rfl, rfl, fun _ => rfl,
   fun _ _ => rfl⟩

/-- What `advance` leaves unchanged. -/
@[simp] theorem State.advance_keeps :
    s.advance.cfg = s.cfg ∧ s.advance.v = s.v ∧ s.advance.i = s.i ∧ s.advance.stack = s.stack ∧ s.advance.sp = s.sp ∧
    s.advance.ram = s.ram ∧ s.advance.dt = s.dt ∧ s.advance.st = s.st ∧ s.advance.fb = s.fb ∧ s.advance.key = s.key ∧
    s.advance.run = s.run ∧ s.advance.diag = s.diag ∧ s.advance.log = s.log ∧ s.advance.stopReq = s.stopReq ∧
    s.advance.turns = s.turns ∧ s.advance.scanWrites = s.scanWrites ∧ s.advance.seen = s.seen ∧
    s.advance.draws = s.draws ∧ (∀ z, s.advance.getV z = s.getV z) ∧ (∀ c, s.advance.readByte c = s.readByte c) ∧
    (∀ c d, s.advance.getPixel c d = s.getPixel c d) :=
  ⟨rfl, rfl, rfl, rfl, rfl, rfl, rfl, rfl, rfl, rfl, rfl, rfl, rfl, rfl, rfl, rfl, rfl, rfl, fun _ => rfl,
   fun _ => rfl, fun _ _ => rfl⟩

/-- What `advance` writes. -/
@[simp] theorem State.advance_writes :
    s.advance.pc = s.pc + 2 :=
  rfl

/-- What `skipIf` leaves unchanged. -/
@[simp] theorem State.skipIf_keeps (b : Bool) :
    (s.skipIf b).cfg = s.cfg ∧ (s.skipIf b).v = s.v ∧ (s.skipIf b).i = s.i ∧ (s.skipIf b).stack = s.stack ∧
    (s.skipIf b).sp = s.sp ∧ (s.skipIf b).ram = s.ram ∧ (s.skipIf b).dt = s.dt ∧ (s.skipIf b).st = s.st ∧
    (s.skipIf b).fb = s.fb ∧ (s.skipIf b).key = s.key ∧ (s.skipIf b).run = s.run ∧ (s.skipIf b).diag = s.diag ∧
    (s.skipIf b).log = s.log ∧ (s.skipIf b).stopReq = s.stopReq ∧ (s.skipIf b).turns = s.turns ∧
    (s.skipIf b).scanWrites = s.scanWrites ∧ (s.skipIf b).seen = s.seen ∧ (s.skipIf b).draws = s.draws ∧
    (∀ z, (s.skipIf b).getV z = s.getV z) ∧ (∀ c, (s.skipIf b).readByte c = s.readByte c) ∧
    (∀ c d, (s.skipIf b).getPixel c d = s.getPixel c d) :=
  ⟨rfl, rfl, rfl, rfl, rfl, rfl, rfl, rfl, rfl, rfl, rfl, rfl, rfl, rfl, rfl, rfl, rfl, rfl, fun _ => rfl,
   fun _ => rfl, fun _ _ => rfl⟩

/-- What `skipIf` writes. -/
@[simp] theorem State.skipIf_writes (b : Bool) :
    (s.skipIf b).pc = if b then s.pc + 4 else s.pc + 2 :=
  rfl

/-- What `jumpTo` leaves unchanged. -/
@[simp] theorem State.jumpTo_keeps (w : Word) :
    (s.jumpTo w).cfg = s.cfg ∧ (s.jumpTo w).v = s.v ∧ (s.jumpTo w).i = s.i ∧ (s.jumpTo w).stack = s.stack ∧
    (s.jumpTo w).sp = s.sp ∧ (s.jumpTo w).ram = s.ram ∧ (s.jumpTo w).dt = s.dt ∧ (s.jumpTo w).st = s.st ∧
    (s.jumpTo w).fb = s.fb ∧ (s.jumpTo w).key = s.key ∧ (s.jumpTo w).run = s.run ∧ (s.jumpTo w).diag = s.diag ∧
    (s.jumpTo w).log = s.log ∧ (s.jumpTo w).stopReq = s.stopReq ∧ (s.jumpTo w).turns = s.turns ∧
    (s.jumpTo w).scanWrites = s.scanWrites ∧ (s.jumpTo w).seen = s.seen ∧ (s.jumpTo w).draws = s.draws ∧
    (∀ z, (s.jumpTo w).getV z = s.getV z) ∧ (∀ c, (s.jumpTo w).readByte c = s.readByte c) ∧
    (∀ c d, (s.jumpTo w).getPixel c d = s.getPixel c d) :=
  ⟨rfl, rfl, rfl, rfl, rfl, rfl, rfl, rfl, rfl, rfl, rfl, rfl, rfl, rfl, rfl, rfl, rfl, rfl, fun _ => rfl,
   fun _ => rfl, fun _ _ => rfl⟩

/-- What `jumpTo` writes. -/
@[simp] theorem State.jumpTo_writes (w : Word) :
    (s.jumpTo w).pc = w :=
  rfl

/-- What `raise` leaves unchanged. -/
@[simp] theorem State.raise_keeps (r : HaltReason) (op : Option Word) :
    (s.raise r op).cfg = s.cfg ∧ (s.raise r op).v = s.v ∧ (s.raise r op).i = s.i ∧ (s.raise r op).pc = s.pc ∧
    (s.raise r op).stack = s.stack ∧ (s.raise r op).sp = s.sp ∧ (s.raise r op).ram = s.ram ∧
    (s.raise r op).dt = s.dt ∧ (s.raise r op).st = s.st ∧ (s.raise r op).fb = s.fb ∧ (s.raise r op).key = s.key ∧
    (s.raise r op).log = s.log ∧ (s.raise r op).stopReq = s.stopReq ∧ (s.raise r op).turns = s.turns ∧
    (s.raise r op).scanWrites = s.scanWrites ∧ (s.raise r op).seen = s.seen ∧ (s.raise r op).draws = s.draws ∧
    (∀ z, (s.raise r op).getV z = s.getV z) ∧ (∀ c, (s.raise r op).readByte c = s.readByte c) ∧
    (∀ c d, (s.raise r op).getPixel c d = s.getPixel c d) :=
  ⟨rfl, rfl, rfl, rfl, rfl, rfl, rfl, rfl, rfl, rfl, rfl, rfl, rfl, rfl, rfl, rfl, rfl, fun _ => rfl, fun _ => rfl,
   fun _ _ => rfl⟩

/-- What `raise` writes. -/
@[simp] theorem State.raise_writes (r : HaltReason) (op : Option Word) :
    (s.raise r op).run = .halted ∧
    (s.raise r op).diag = Diag.mk r s.pc op.isSome (op.getD 0) :=
  ⟨rfl, rfl⟩

/-- What `raiseIn` leaves unchanged. -/
@[simp] theorem State.raiseIn_keeps (r : HaltReason) (ins : Instr) :
    (s.raiseIn r ins).cfg = s.cfg ∧ (s.raiseIn r ins).v = s.v ∧ (s.raiseIn r ins).i = s.i ∧
    (s.raiseIn r ins).pc = s.pc ∧ (s.raiseIn r ins).stack = s.stack ∧ (s.raiseIn r ins).sp = s.sp ∧
    (s.raiseIn r ins).ram = s.ram ∧ (s.raiseIn r ins).dt = s.dt ∧ (s.raiseIn r ins).st = s.st ∧
    (s.raiseIn r ins).fb = s.fb ∧ (s.raiseIn r ins).key = s.key ∧ (s.raiseIn r ins).log = s.log ∧
    (s.raiseIn r ins).stopReq = s.stopReq ∧ (s.raiseIn r ins).turns = s.turns ∧
    (s.raiseIn r ins).scanWrites = s.scanWrites ∧ (s.raiseIn r ins).seen = s.seen ∧
    (s.raiseIn r ins).draws = s.draws ∧ (∀ z, (s.raiseIn r ins).getV z = s.getV z) ∧
    (∀ c, (s.raiseIn r ins).readByte c = s.readByte c) ∧ (∀ c d, (s.raiseIn r ins).getPixel c d = s.getPixel c d) :=
  ⟨rfl, rfl, rfl, rfl, rfl, rfl, rfl, rfl, rfl, rfl, rfl, rfl, rfl, rfl, rfl, rfl, rfl, fun _ => rfl, fun _ => rfl,
   fun _ _ => rfl⟩

/-- What `raiseIn` writes. -/
@[simp] theorem State.raiseIn_writes (r : HaltReason) (ins : Instr) :
    (s.raiseIn r ins).run = .halted ∧
    (s.raiseIn r ins).diag = Diag.mk r s.pc true ins.encode :=
  ⟨rfl, rfl⟩

/-- What `setKeyState` leaves unchanged. -/
@[simp] theorem State.setKeyState_keeps (k : Nibble) (ks : KeyState) :
    (s.setKeyState k ks).cfg = s.cfg ∧ (s.setKeyState k ks).v = s.v ∧ (s.setKeyState k ks).i = s.i ∧
    (s.setKeyState k ks).pc = s.pc ∧ (s.setKeyState k ks).stack = s.stack ∧ (s.setKeyState k ks).sp = s.sp ∧
    (s.setKeyState k ks).ram = s.ram ∧ (s.setKeyState k ks).dt = s.dt ∧ (s.setKeyState k ks).st = s.st ∧
    (s.setKeyState k ks).fb = s.fb ∧ (s.setKeyState k ks).run = s.run ∧ (s.setKeyState k ks).diag = s.diag ∧
    (s.setKeyState k ks).log = s.log ∧ (s.setKeyState k ks).stopReq = s.stopReq ∧
    (s.setKeyState k ks).turns = s.turns ∧ (s.setKeyState k ks).scanWrites = s.scanWrites ∧
    (s.setKeyState k ks).seen = s.seen ∧ (s.setKeyState k ks).draws = s.draws ∧
    (∀ z, (s.setKeyState k ks).getV z = s.getV z) ∧ (∀ c, (s.setKeyState k ks).readByte c = s.readByte c) ∧
    (∀ c d, (s.setKeyState k ks).getPixel c d = s.getPixel c d) :=
  ⟨rfl, rfl, rfl, rfl, rfl, rfl, rfl, rfl, rfl, rfl, rfl, rfl, rfl, rfl, rfl, rfl, rfl, rfl, fun _ => rfl,
   fun _ => rfl, fun _ _ => rfl⟩

/-- What `setKeyState` writes. -/
@[simp] theorem State.setKeyState_writes (k : Nibble) (ks : KeyState) :
    (s.setKeyState k ks).key = setKeyAt s.key k ks :=
  rfl

/-- What `observePixel` leaves unchanged. -/
@[simp] theorem State.observePixel_keeps (x y : Nat) :
    (s.observePixel x y).cfg = s.cfg ∧ (s.observePixel x y).v = s.v ∧ (s.observePixel x y).i = s.i ∧
    (s.observePixel x y).pc = s.pc ∧ (s.observePixel x y).stack = s.stack ∧ (s.observePixel x y).sp = s.sp ∧
    (s.observePixel x y).ram = s.ram ∧ (s.observePixel x y).dt = s.dt ∧ (s.observePixel x y).st = s.st ∧
    (s.observePixel x y).fb = s.fb ∧ (s.observePixel x y).key = s.key ∧ (s.observePixel x y).run = s.run ∧
    (s.observePixel x y).diag = s.diag ∧ (s.observePixel x y).log = s.log ∧
    (s.observePixel x y).stopReq = s.stopReq ∧ (s.observePixel x y).turns = s.turns ∧
    (s.observePixel x y).scanWrites = s.scanWrites ∧ (s.observePixel x y).draws = s.draws ∧
    (∀ z, (s.observePixel x y).getV z = s.getV z) ∧ (∀ c, (s.observePixel x y).readByte c = s.readByte c) ∧
    (∀ c d, (s.observePixel x y).getPixel c d = s.getPixel c d) :=
  ⟨rfl, rfl, rfl, rfl, rfl, rfl, rfl, rfl, rfl, rfl, rfl, rfl, rfl, rfl, rfl, rfl, rfl, rfl, fun _ => rfl,
   fun _ => rfl, fun _ _ => rfl⟩

/-- What `observePixel` writes. -/
@[simp] theorem State.observePixel_writes (x y : Nat) :
    (s.observePixel x y).seen = s.seen ++ [PixelSeen.mk x y (s.getPixel x y)] :=
  rfl

/-- What `requestStop` leaves unchanged. -/
@[simp] theorem State.requestStop_keeps :
    s.requestStop.cfg = s.cfg ∧ s.requestStop.v = s.v ∧ s.requestStop.i = s.i ∧ s.requestStop.pc = s.pc ∧
    s.requestStop.stack = s.stack ∧ s.requestStop.sp = s.sp ∧ s.requestStop.ram = s.ram ∧ s.requestStop.dt = s.dt ∧
    s.requestStop.st = s.st ∧ s.requestStop.fb = s.fb ∧ s.requestStop.key = s.key ∧ s.requestStop.run = s.run ∧
    s.requestStop.diag = s.diag ∧ s.requestStop.log = s.log ∧ s.requestStop.turns = s.turns ∧
    s.requestStop.scanWrites = s.scanWrites ∧ s.requestStop.seen = s.seen ∧ s.requestStop.draws = s.draws ∧
    (∀ z, s.requestStop.getV z = s.getV z) ∧ (∀ c, s.requestStop.readByte c = s.readByte c) ∧
    (∀ c d, s.requestStop.getPixel c d = s.getPixel c d) :=
  ⟨rfl, rfl, rfl, rfl, rfl, rfl, rfl, rfl, rfl, rfl, rfl, rfl, rfl, rfl, rfl, rfl, rfl, rfl, fun _ => rfl,
   fun _ => rfl, fun _ _ => rfl⟩

/-- What `requestStop` writes. -/
@[simp] theorem State.requestStop_writes :
    s.requestStop.stopReq = true :=
  rfl

/-- What `landAgents` leaves unchanged. -/
@[simp] theorem State.landAgents_keeps (fb : Framebuffer) (ws : List PixelWrite) (rs : List MidRead) :
    (s.landAgents fb ws rs).cfg = s.cfg ∧ (s.landAgents fb ws rs).v = s.v ∧ (s.landAgents fb ws rs).i = s.i ∧
    (s.landAgents fb ws rs).pc = s.pc ∧ (s.landAgents fb ws rs).stack = s.stack ∧ (s.landAgents fb ws rs).sp = s.sp ∧
    (s.landAgents fb ws rs).ram = s.ram ∧ (s.landAgents fb ws rs).dt = s.dt ∧ (s.landAgents fb ws rs).st = s.st ∧
    (s.landAgents fb ws rs).fb = s.fb ∧ (s.landAgents fb ws rs).run = s.run ∧ (s.landAgents fb ws rs).diag = s.diag ∧
    (s.landAgents fb ws rs).log = s.log ∧ (s.landAgents fb ws rs).stopReq = s.stopReq ∧
    (s.landAgents fb ws rs).turns = s.turns ∧ (s.landAgents fb ws rs).draws = s.draws ∧
    (∀ z, (s.landAgents fb ws rs).getV z = s.getV z) ∧ (∀ c, (s.landAgents fb ws rs).readByte c = s.readByte c) ∧
    (∀ c d, (s.landAgents fb ws rs).getPixel c d = s.getPixel c d) :=
  ⟨rfl, rfl, rfl, rfl, rfl, rfl, rfl, rfl, rfl, rfl, rfl, rfl, rfl, rfl, rfl, rfl, fun _ => rfl, fun _ => rfl,
   fun _ _ => rfl⟩

/-- What `landAgents` writes. -/
@[simp] theorem State.landAgents_writes (fb : Framebuffer) (ws : List PixelWrite) (rs : List MidRead) :
    (s.landAgents fb ws rs).key = keypadAtRead s.scanWrites s.key 15 ∧
    (s.landAgents fb ws rs).scanWrites = [] :=
  ⟨rfl, rfl⟩

/-- Reading a register after writing one. -/
@[simp] theorem State.getV_setV (x y : Nibble) (b : Byte) : (s.setV x b).getV y = if y = x then b else s.getV y := by
  unfold State.getV State.setV
  simp only [Vector.getElem_set, BitVec.toNat_inj, eq_comm]

/-- Reading a register after writing the flag. -/
@[simp] theorem State.getV_setFlag (f : Bool) (y : Nibble) :
    (s.setFlag f).getV y = if y = 0xF then (if f then 1 else 0) else s.getV y :=
  s.getV_setV 0xF y _

/-- Reading a register after the two writes of a flag-writing instruction: the result wins over the flag (R172). -/
@[simp] theorem State.getV_setFlagThenV (f : Bool) (x y : Nibble) (b : Byte) :
    (s.setFlagThenV f x b).getV y =
      if y = x then b else if y = 0xF then (if f then 1 else 0) else s.getV y := by
  simp [State.setFlagThenV]

/-- The read of a pixel, in terms of the framebuffer. -/
theorem State.getPixel_eq (x y : Nat) : s.getPixel x y = s.fb.get s.cfg x y := rfl

/-- A tick of the delay timer writes DT only, and only where timers run. -/
theorem State.tickDelay_eq : s.tickDelay = { s with dt := if s.timersStopped then s.dt else tick s.dt } := by
  unfold State.tickDelay; split <;> rfl

/-- A tick of the sound timer writes ST only, and only where timers run. -/
theorem State.tickSound_eq : s.tickSound = { s with st := if s.timersStopped then s.st else tick s.st } := by
  unfold State.tickSound; split <;> rfl

/-- A tick is the truncated decrement. -/
theorem tick_toNat (b : Byte) : (tick b).toNat = b.toNat - 1 := by
  unfold tick; split
  · simp_all
  · have h : b.toNat ≠ 0 := fun h => by simp_all [← BitVec.toNat_inj]
    simp [BitVec.toNat_sub]; omega

end Sys2Proof.Machine
end

