-- ==== Sys2Proof/Laws/Framebuffer.lean ====
section
/-! SUPPORT. The laws of the framebuffer: a pixel read after a pixel write, and the canonical form every operation keeps. -/

namespace Sys2Proof.Machine

variable (c : Config)

/-- What lighting a cell adds. -/
@[simp] theorem Framebuffer.mem_light (k j : Nat) (fb : Framebuffer) : j ∈ fb.light k ↔ j = k ∨ j ∈ fb := by
  induction fb with
  | nil => simp [Framebuffer.light]
  | cons l fb ih =>
    unfold Framebuffer.light
    split_ifs with h1 h2
    · simp
    · subst h2; simp
    · simp only [List.mem_cons, ih]; tauto

/-- What darkening a cell takes away. -/
@[simp] theorem Framebuffer.mem_darken (k j : Nat) (fb : Framebuffer) : j ∈ fb.darken k ↔ j ∈ fb ∧ j ≠ k := by
  simp [Framebuffer.darken]

/-- Lighting a cell keeps the cells strictly rising. -/
theorem Framebuffer.light_pairwise (k : Nat) (fb : Framebuffer) (h : fb.Pairwise (· < ·)) :
    (fb.light k).Pairwise (· < ·) := by
  induction fb with
  | nil => simp [Framebuffer.light]
  | cons j fb ih =>
    have h' := List.pairwise_cons.1 h
    unfold Framebuffer.light
    split_ifs with h1 h2
    · exact List.pairwise_cons.2 ⟨fun i hi => (List.mem_cons.1 hi).elim (fun e => e ▸ h1) fun hi => lt_trans h1 (h'.1 i hi), h⟩
    · exact h
    · refine List.pairwise_cons.2 ⟨fun i hi => ?_, ih h'.2⟩
      rcases (Framebuffer.mem_light k i fb).1 hi with rfl | hi
      · omega
      · exact h'.1 i hi

/-- The cell a pixel write names. -/
theorem Framebuffer.mem_set (fb : Framebuffer) (w : PixelWrite) (j : Nat) :
    j ∈ fb.set c w ↔ if j = pixelCell c w.x w.y then w.lit = true else j ∈ fb := by
  unfold Framebuffer.set
  split_ifs with h1 h2 h2 <;> simp_all

/-- A pixel read after a pixel write: the value written where both name one cell, and every other cell as before. -/
theorem Framebuffer.get_set (fb : Framebuffer) (w : PixelWrite) (x y : Nat) :
    (fb.set c w).get c x y = if pixelCell c x y = pixelCell c w.x w.y then w.lit else fb.get c x y := by
  unfold Framebuffer.get
  rw [Bool.eq_iff_iff, decide_eq_true_iff, Framebuffer.mem_set]
  split_ifs <;> simp

/-- A wrapped coordinate names a cell inside a grid that has one. -/
theorem pixelCell_lt (hc : c.wf = true) (x y : Nat) : pixelCell c x y < c.fbH * c.fbW := by
  simp only [Config.wf, Bool.and_eq_true, decide_eq_true_eq] at hc
  have hx : x % c.fbW < c.fbW := Nat.mod_lt _ (by omega)
  have hy : y % c.fbH + 1 ≤ c.fbH := Nat.mod_lt _ (by omega)
  have := Nat.mul_le_mul_right c.fbW hy
  unfold pixelCell
  rw [Nat.add_mul] at this
  omega

/-- Two wrapped coordinates name one cell only if they agree modulo the grid. -/
theorem pixelCell_inj (hc : c.wf = true) (x y x' y' : Nat) :
    pixelCell c x y = pixelCell c x' y' ↔ x % c.fbW = x' % c.fbW ∧ y % c.fbH = y' % c.fbH := by
  simp only [Config.wf, Bool.and_eq_true, decide_eq_true_eq] at hc
  have hx : x % c.fbW < c.fbW := Nat.mod_lt _ (by omega)
  have hx' : x' % c.fbW < c.fbW := Nat.mod_lt _ (by omega)
  constructor
  · intro h
    rw [pixelCell, pixelCell, Nat.mul_comm, Nat.mul_comm (y' % c.fbH)] at h
    have hmod := congrArg (· % c.fbW) h
    have hdiv := congrArg (· / c.fbW) h
    simp only [Nat.mul_add_mod, Nat.mod_mod] at hmod
    simp only [Nat.mul_add_div (show 0 < c.fbW by omega), Nat.div_eq_of_lt hx, Nat.div_eq_of_lt hx'] at hdiv
    exact ⟨hmod, by omega⟩
  · rintro ⟨h1, h2⟩
    simp [pixelCell, h1, h2]

/-- A pixel write keeps the canonical form. -/
theorem Framebuffer.set_wf (hc : c.wf = true) (fb : Framebuffer) (h : fb.wf c) (w : PixelWrite) : (fb.set c w).wf c := by
  constructor
  · unfold Framebuffer.set
    split_ifs
    · exact Framebuffer.light_pairwise _ _ h.1
    · exact h.1.filter _
  · intro k hk
    rw [Framebuffer.mem_set] at hk
    split_ifs at hk with e
    · exact e ▸ pixelCell_lt c hc _ _
    · exact h.2 k hk

/-- A sequence of pixel writes keeps the canonical form. -/
theorem Framebuffer.setAll_wf (hc : c.wf = true) (ws : List PixelWrite) (fb : Framebuffer) (h : fb.wf c) :
    (fb.setAll c ws).wf c := by
  induction ws generalizing fb with
  | nil => exact h
  | cons w ws ih => exact ih _ (Framebuffer.set_wf c hc fb h w)

/-- The dark framebuffer is canonical. -/
theorem Framebuffer.wf_nil : Framebuffer.wf c [] := by simp [Framebuffer.wf]

end Sys2Proof.Machine
end

