-- ==== Sys2Proof/Laws/Display.lean ====
section
/-! SUPPORT. What the pixel writes of `CLS` and `DRW` make of a framebuffer, and when a sprite collides (43_display_keys.md R191,
R192). -/

namespace Sys2Proof.Machine

variable (c : Config)

/-- The rows of a sprite one after another, with the row number each pixel has. -/
theorem spritePixels_readBytes (s : State) (vx vy a n : Nat) :
    spritePixels vx vy (s.readBytes a n) = (List.range n).flatMap fun r => rowPixels vx (vy + r) (s.readByte (a + r)) := by
  induction n generalizing a vy with
  | zero => rfl
  | succ n ih =>
    have e : s.readBytes a (n + 1) = s.readByte a :: s.readBytes (a + 1) n := by
      simp [State.readBytes, List.range_succ_eq_map, Function.comp_def, Nat.add_assoc, Nat.add_comm 1]
    rw [e, spritePixels, ih, List.range_succ_eq_map, List.flatMap_cons, List.flatMap_map]
    simp [Nat.add_assoc, Nat.add_comm 1]

/-- The pixels `DRW` inverts are the set bits of its sprite. -/
theorem State.drawWrites_eq (s : State) (x y n : Nibble) :
    s.drawWrites x y n = toggleWrites s.cfg s.fb (spriteHits s x y n) := by
  rw [State.drawWrites, State.operandBytes, spritePixels_readBytes]; rfl

/-- One more hit on a cell changes the parity of the hits. -/
theorem odd_succ (k : Nat) : decide ((k + 1) % 2 = 1) = !decide (k % 2 = 1) := by
  rcases Nat.mod_two_eq_zero_or_one k with h | h <;> simp [Nat.add_mod, h]

/-- The hits on a cell, with one more coordinate before them. -/
theorem hitsOn_cons (hc : c.wf = true) (a b : Nat) (p : Nat × Nat) (ps : List (Nat × Nat)) :
    hitsOn c a b (p :: ps) = hitsOn c a b ps + if pixelCell c a b = pixelCell c p.1 p.2 then 1 else 0 := by
  have e : (p.1 % c.fbW = a % c.fbW ∧ p.2 % c.fbH = b % c.fbH) ↔ pixelCell c a b = pixelCell c p.1 p.2 := by
    rw [pixelCell_inj c hc]; constructor <;> rintro ⟨h1, h2⟩ <;> exact ⟨h1.symm, h2.symm⟩
  simp only [hitsOn, List.countP_cons, decide_eq_true_eq, e]

/-- A pixel after one inversion. -/
theorem Framebuffer.get_toggle (fb : Framebuffer) (p : Nat × Nat) (a b : Nat) :
    (fb.set c { x := p.1, y := p.2, lit := !fb.get c p.1 p.2 }).get c a b =
      (fb.get c a b ^^ decide (pixelCell c a b = pixelCell c p.1 p.2)) := by
  rw [Framebuffer.get_set]
  by_cases h : pixelCell c a b = pixelCell c p.1 p.2
  · have : fb.get c a b = fb.get c p.1 p.2 := by simp [Framebuffer.get, h]
    simp [h, this]
  · simp [h]

/-- A pixel after a sequence of inversions: inverted once for each that wraps onto it. -/
theorem Framebuffer.get_setAll_toggleWrites (hc : c.wf = true) (ps : List (Nat × Nat)) (fb : Framebuffer) (a b : Nat) :
    (fb.setAll c (toggleWrites c fb ps)).get c a b = (fb.get c a b ^^ decide (hitsOn c a b ps % 2 = 1)) := by
  induction ps generalizing fb with
  | nil => simp [toggleWrites, Framebuffer.setAll, hitsOn]
  | cons p ps ih =>
    have := ih (fb.set c { x := p.1, y := p.2, lit := !fb.get c p.1 p.2 })
    simp only [toggleWrites, Framebuffer.setAll, List.foldl_cons] at *
    rw [this, Framebuffer.get_toggle, hitsOn_cons c hc]
    by_cases h : pixelCell c a b = pixelCell c p.1 p.2
    · rw [if_pos h, odd_succ]; simp [h]
    · simp [h]

/-- A sequence of inversions collides exactly when some one of them finds its pixel lit, those before it having been made. -/
theorem collided_toggleWrites (hc : c.wf = true) (ps : List (Nat × Nat)) (fb : Framebuffer) :
    collided (toggleWrites c fb ps) = true ↔ ∃ before p after, ps = before ++ p :: after ∧
      (fb.get c p.1 p.2 ^^ decide (hitsOn c p.1 p.2 before % 2 = 1)) = true := by
  induction ps generalizing fb with
  | nil => simp [toggleWrites, collided]
  | cons q ps ih =>
    have ih := ih (fb.set c { x := q.1, y := q.2, lit := !fb.get c q.1 q.2 })
    simp only [collided, toggleWrites, List.any_cons, Bool.or_eq_true, Bool.not_not] at *
    rw [ih]
    have key : ∀ (p : Nat × Nat) (before : List (Nat × Nat)),
        ((fb.set c { x := q.1, y := q.2, lit := !fb.get c q.1 q.2 }).get c p.1 p.2 ^^
          decide (hitsOn c p.1 p.2 before % 2 = 1)) =
        (fb.get c p.1 p.2 ^^ decide (hitsOn c p.1 p.2 (q :: before) % 2 = 1)) := by
      intro p before
      rw [Framebuffer.get_toggle, hitsOn_cons c hc]
      by_cases h : pixelCell c p.1 p.2 = pixelCell c q.1 q.2
      · rw [if_pos h, odd_succ]; simp [h]
      · simp [h]
    constructor
    · rintro (h | ⟨before, p, after, rfl, h⟩)
      · exact ⟨[], q, ps, rfl, by simpa [hitsOn] using h⟩
      · exact ⟨q :: before, p, after, rfl, key p before ▸ h⟩
    · rintro ⟨before, p, after, e, h⟩
      cases before with
      | nil =>
        obtain ⟨rfl, rfl⟩ := List.cons.inj e
        exact .inl (by simpa [hitsOn] using h)
      | cons r before =>
        obtain ⟨rfl, rfl⟩ := List.cons.inj e
        exact .inr ⟨before, p, after, rfl, (key p before).symm ▸ h⟩

/-- A cell is lit after a sequence of writes that only darken exactly when it was lit and none of them names it. -/
theorem Framebuffer.mem_setAll_dark (ws : List PixelWrite) (h : ∀ w ∈ ws, w.lit = false) (fb : Framebuffer) (k : Nat) :
    k ∈ fb.setAll c ws ↔ k ∈ fb ∧ ∀ w ∈ ws, k ≠ pixelCell c w.x w.y := by
  induction ws generalizing fb with
  | nil => simp [Framebuffer.setAll]
  | cons w ws ih =>
    have ih := ih (fun v hv => h v (by simp [hv])) (fb.set c w)
    simp only [Framebuffer.setAll, List.foldl_cons] at *
    rw [ih, Framebuffer.mem_set, h w (by simp)]
    by_cases e : k = pixelCell c w.x w.y <;> simp [e]

/-- The writes of `CLS` darken, and one of them names each cell. -/
theorem clearWrites_cover (hc : c.wf = true) (x y : Nat) :
    (∀ w ∈ clearWrites c, w.lit = false) ∧ ∃ w ∈ clearWrites c, pixelCell c w.x w.y = pixelCell c x y := by
  simp only [Config.wf, Bool.and_eq_true, decide_eq_true_eq] at hc
  refine ⟨fun w hw => ?_, ⟨x % c.fbW, y % c.fbH, false⟩, ?_, ?_⟩
  · simp only [clearWrites, List.mem_flatMap, List.mem_map] at hw
    obtain ⟨_, _, _, _, rfl⟩ := hw
    rfl
  · simp only [clearWrites, List.mem_flatMap, List.mem_map, List.mem_range]
    exact ⟨y % c.fbH, Nat.mod_lt _ (by omega), x % c.fbW, Nat.mod_lt _ (by omega), rfl⟩
  · simp [pixelCell]

end Sys2Proof.Machine
end

