-- ==== Sys2Proof/Laws/Memory.lean ====
section
/-! SUPPORT. The laws of RAM: a read after a write, and the canonical form that every memory operation keeps. -/

namespace Sys2Proof.Machine

variable (d : Nat → Byte)

/-- A read below every listed address gives what an unlisted address reads as. -/
theorem Memory.read_of_lt (m : Memory) (a : Nat) (h : ∀ p ∈ m, a < p.1) : m.read d a = d a := by
  induction m with
  | nil => rfl
  | cons p m ih =>
    have hp := h p (by simp)
    have hne : a ≠ p.1 := by omega
    simp [Memory.read, hne, ih fun q hq => h q (by simp [hq])]

/-- A read after a write gives the value written there, and every other address as before. -/
theorem Memory.read_write (m : Memory) (hm : m.Pairwise fun p q => p.1 < q.1) (a b : Nat) (v : Byte) :
    (m.write d a v).read d b = if b = a then v else m.read d b := by
  induction m with
  | nil =>
    unfold Memory.write
    split_ifs with hv hb hb <;> simp_all [Memory.read]
  | cons p m ih =>
    obtain ⟨c, w⟩ := p
    rw [List.pairwise_cons] at hm
    unfold Memory.write
    by_cases hac : a < c
    · have hr : Memory.read d ((c, w) :: m) a = d a :=
        Memory.read_of_lt d _ a fun q hq => by
          rcases List.mem_cons.1 hq with e | hq
          · rw [e]; exact hac
          · exact Nat.lt_trans hac (hm.1 q hq)
      simp only [hac, if_true]
      split_ifs with hv hb hb
      · subst hb; rw [hr, hv]
      · rfl
      · subst hb; simp [Memory.read]
      · rw [Memory.read, if_neg hb]
    · by_cases hac' : a = c
      · subst hac'
        have hr : Memory.read d m a = d a := Memory.read_of_lt d m a hm.1
        simp only [lt_irrefl, if_false, if_true]
        split_ifs with hv hb hb
        · subst hb; rw [hr, hv]
        · simp [Memory.read, hb]
        · subst hb; simp [Memory.read]
        · simp [Memory.read, hb]
      · simp only [hac, hac', if_false, Memory.read, ih hm.2]
        by_cases hbc : b = c
        · have hca : c ≠ a := fun h => hac' h.symm
          simp [hbc, hca]
        · simp [hbc]

/-- The addresses a write leaves listed: those listed before and the one written. -/
theorem Memory.mem_write (m : Memory) (a : Nat) (v : Byte) (p : Host.Cell) (h : p ∈ m.write d a v) :
    p ∈ m ∨ (p = (a, v) ∧ v ≠ d a) := by
  induction m with
  | nil =>
    unfold Memory.write at h
    split_ifs at h with hv
    · simp at h
    · exact Or.inr ⟨by simpa using h, hv⟩
  | cons q m ih =>
    obtain ⟨c, w⟩ := q
    unfold Memory.write at h
    split_ifs at h with h1 hv h2 hv <;> simp only [List.mem_cons] at h ⊢
    · exact Or.inl h
    · rcases h with h | h
      · exact Or.inr ⟨h, hv⟩
      · exact Or.inl h
    · exact Or.inl (Or.inr h)
    · rcases h with h | h
      · exact Or.inr ⟨h, hv⟩
      · exact Or.inl (Or.inr h)
    · rcases h with h | h
      · exact Or.inl (Or.inl h)
      · rcases ih h with h | h
        · exact Or.inl (Or.inr h)
        · exact Or.inr h

/-- A write keeps the addresses strictly rising. -/
theorem Memory.write_pairwise (m : Memory) (hm : m.Pairwise fun p q => p.1 < q.1) (a : Nat) (v : Byte) :
    (m.write d a v).Pairwise fun p q => p.1 < q.1 := by
  induction m with
  | nil => unfold Memory.write; split_ifs <;> simp
  | cons p m ih =>
    obtain ⟨c, w⟩ := p
    have hm' := List.pairwise_cons.1 hm
    unfold Memory.write
    split_ifs with h1 hv h2 hv
    · exact hm
    · refine List.pairwise_cons.2 ⟨fun q hq => ?_, hm⟩
      rcases List.mem_cons.1 hq with rfl | hq
      · exact h1
      · exact lt_trans h1 (hm'.1 q hq)
    · exact hm'.2
    · exact List.pairwise_cons.2 ⟨fun q hq => h2 ▸ hm'.1 q hq, hm'.2⟩
    · refine List.pairwise_cons.2 ⟨fun q hq => ?_, ih hm'.2⟩
      rcases Memory.mem_write d m a v q hq with hq | ⟨rfl, -⟩
      · exact hm'.1 q hq
      · show c < a; omega

/-- A write inside RAM keeps the canonical form. -/
theorem Memory.write_wf (m : Memory) (hm : m.wf d) (a : Nat) (v : Byte) (ha : a < ramSize) :
    (m.write d a v).wf d := by
  refine ⟨Memory.write_pairwise d m hm.1 a v, fun p hp => ?_⟩
  rcases Memory.mem_write d m a v p hp with hp | ⟨rfl, hv⟩
  · exact hm.2 p hp
  · exact ⟨ha, hv⟩

/-- A sequence of writes keeps the addresses strictly rising. -/
theorem Memory.writeBytes_pairwise (bs : List Byte) (m : Memory) (a : Nat)
    (hm : m.Pairwise fun p q => p.1 < q.1) : (m.writeBytes d a bs).Pairwise fun p q => p.1 < q.1 := by
  induction bs generalizing m a with
  | nil => exact hm
  | cons b bs ih => exact ih _ _ (Memory.write_pairwise d m hm a b)

/-- A sequence of writes inside RAM keeps the canonical form. -/
theorem Memory.writeBytes_wf (bs : List Byte) (m : Memory) (a : Nat) (hm : m.wf d)
    (ha : bs = [] ∨ a + bs.length ≤ ramSize) : (m.writeBytes d a bs).wf d := by
  induction bs generalizing m a with
  | nil => exact hm
  | cons b bs ih =>
    simp only [reduceCtorEq, List.length_cons, false_or] at ha
    exact ih _ _ (Memory.write_wf d m hm a b (by simp only [ramSize] at *; omega)) (Or.inr (by omega))

/-- A read after a sequence of writes: the byte written at that address, or the byte there before. -/
theorem Memory.read_writeBytes (bs : List Byte) (m : Memory) (a b : Nat)
    (hm : m.Pairwise fun p q => p.1 < q.1) :
    (m.writeBytes d a bs).read d b =
      if a ≤ b ∧ b < a + bs.length then bs.getD (b - a) 0 else m.read d b := by
  induction bs generalizing m a with
  | nil =>
    have h : ¬ (a ≤ b ∧ b < a) := by omega
    simp [Memory.writeBytes, h]
  | cons w bs ih =>
    rw [Memory.writeBytes, ih _ _ (Memory.write_pairwise d m hm a w), Memory.read_write d m hm]
    by_cases h1 : b = a
    · subst h1; simp
    · by_cases h2 : a + 1 ≤ b ∧ b < a + 1 + bs.length
      · have h3 : a ≤ b ∧ b < a + (bs.length + 1) := by omega
        obtain ⟨k, rfl⟩ : ∃ k, b = a + 1 + k := ⟨b - (a + 1), by omega⟩
        have e1 : a + 1 + k - a = k + 1 := by omega
        have e2 : a + 1 + k - (a + 1) = k := by omega
        simp only [List.length_cons, h2, h3, and_self, if_true, e1, e2, List.getD_cons_succ]
      · have h3 : ¬ (a ≤ b ∧ b < a + (bs.length + 1)) := by omega
        rw [if_neg h2, if_neg h1, List.length_cons, if_neg h3]

/-- The write-back of a state: what each address reads as after bytes were stored from `a` on. -/
theorem State.readByte_writeBytes (s : State) (hs : s.ram.Pairwise fun p q => p.1 < q.1) (a b : Nat) (bs : List Byte) :
    (s.writeBytes a bs).readByte b =
      if a ≤ b ∧ b < a + bs.length then bs.getD (b - a) 0 else s.readByte b :=
  Memory.read_writeBytes _ bs s.ram a b hs

/-- Outside RAM a canonical memory lists nothing. -/
theorem Memory.read_outside (m : Memory) (hm : m.wf d) (a : Nat) (ha : ramSize ≤ a) : m.read d a = d a := by
  obtain ⟨-, hm⟩ := hm
  induction m with
  | nil => rfl
  | cons p m ih =>
    have hp := (hm p (by simp)).1
    have hne : a ≠ p.1 := by omega
    simp [Memory.read, hne, ih fun q hq => hm q (by simp [hq])]

/-- The empty memory is canonical. -/
theorem Memory.wf_nil : Memory.wf d [] := by simp [Memory.wf]

end Sys2Proof.Machine
end

