-- ==== Sys2Proof/Laws/Ops.lean ====
section
/-! SUPPORT. One lemma for each shared operation, which says once everything it can do. -/

namespace Sys2Proof.Machine

variable (s t : State)

/-- Push (R26): it answers exactly when fewer than sixteen entries are live. -/
theorem State.push_cases (w : Word) :
    (∃ h : s.sp.val < 16,
      s.push w = some { s with stack := s.stack.set s.sp.val w, sp := ⟨s.sp.val + 1, by omega⟩ }) ∨
    (s.sp.val = 16 ∧ s.push w = none) := by
  unfold State.push
  split
  · exact .inl ⟨‹_›, rfl⟩
  · exact .inr ⟨by have := s.sp.isLt; omega, rfl⟩

/-- Pop (R26): it answers exactly when an entry is live. -/
theorem State.pop_cases :
    (∃ h : 0 < s.sp.val,
      s.pop = some ({ s with sp := ⟨s.sp.val - 1, by omega⟩ }, s.stack[s.sp.val - 1])) ∨
    (s.sp.val = 0 ∧ s.pop = none) := by
  unfold State.pop
  split
  · exact .inl ⟨‹_›, rfl⟩
  · exact .inr ⟨by omega, rfl⟩

/-- The decode miss (R235), by the policy. -/
theorem State.decodeMiss_cases (op : Word) :
    (s.cfg.invalidPolicy = .fatal ∧ s.decodeMiss op = s.haltedWith .decodeMiss (some op)) ∨
    (s.cfg.invalidPolicy = .skip ∧
      s.decodeMiss op = { s with log := s.log ++ [Miss.mk op s.pc], pc := s.pc + 2 }) := by
  unfold State.decodeMiss
  cases s.cfg.invalidPolicy
  · exact .inr ⟨rfl, rfl⟩
  · exact .inl ⟨rfl, rfl⟩

/-- Trap entry leaves the halted state of the terms claims use. -/
theorem State.raise_eq (r : HaltReason) (op : Option Word) : s.raise r op = s.haltedWith r op := rfl

/-- The bounds check of a data access (R66). -/
theorem State.operandInRam_iff (len : Nat) : s.operandInRam len = true ↔ len = 0 ∨ s.i.toNat + len ≤ ramSize := by
  simp only [State.operandInRam, decide_eq_true_eq, ramSize]; omega

/-- The check of the program counter (R123). -/
theorem State.pcLegal_iff :
    s.pcLegal = true ↔ s.pc.toNat % 2 = 0 ∧ 0x200 ≤ s.pc.toNat ∧ s.pc.toNat ≤ 0xFFE := by
  simp [State.pcLegal]

/-- The registers after a load from memory (R219). -/
theorem getElem_loadRegsFrom (n : Nat) (hn : n ≤ 16) (r : Nat) (hr : r < 16) :
    (loadRegsFrom s n)[r] = if r < n then s.readByte (s.i.toNat + r) else s.v[r] := by
  induction n with
  | zero => rfl
  | succ n ih =>
    simp only [loadRegsFrom, Vector.getElem_setIfInBounds, ih (by omega)]
    by_cases h : n = r
    · subst h; simp
    · have : r < n + 1 ↔ r < n := by omega
      simp [h, this]

/-- The number of digits. -/
@[simp] theorem length_bcdDigits (b : Byte) : (bcdDigits b).length = 3 := rfl

/-- The number of registers stored. -/
@[simp] theorem State.length_regsUpTo (x : Nibble) : (s.regsUpTo x).length = x.toNat + 1 := by
  have := x.isLt
  simp only [State.regsUpTo, List.length_take, Vector.length_toList]; omega

/-- The registers stored, one by one. -/
theorem State.getD_regsUpTo (x : Nibble) (k : Nat) (hk : k ≤ x.toNat) :
    (s.regsUpTo x).getD k 0 = s.getV (BitVec.ofNat 4 k) := by
  have hx := x.isLt
  have hk16 : k < 16 := by omega
  have hmod : k % 2 ^ 4 = k := Nat.mod_eq_of_lt hk16
  simp only [State.regsUpTo, State.getV, BitVec.toNat_ofNat, hmod]
  rw [List.getD_eq_getElem _ _ (by simp; omega)]
  simp

/-- With no write inside the scan, every read of it sees the keypad as it is. -/
@[simp] theorem keypadAtRead_nil (key : Vector KeyState 16) (n : Nat) : keypadAtRead [] key n = key := by
  induction n with
  | zero => rfl
  | succ n ih => rw [keypadAtRead, ih]; rfl

/-- The set of keys a poll finds Pressed (R196). -/
theorem State.mem_pressedInScan (k : Nibble) :
    k ∈ s.pressedInScan ↔ keyAt (keypadAtRead s.scanWrites s.key k.toNat) k = .pressed := by
  have h : k ∈ (List.range 16).map (BitVec.ofNat 4) :=
    List.mem_map.2 ⟨k.toNat, List.mem_range.2 k.isLt, by simp⟩
  simp [State.pressedInScan, -List.mem_map, h]

/-- The key drawn is a member of the set drawn from (R198). -/
theorem pickKey_mem (d : Nat) (k : Nibble) (ks : List Nibble) : pickKey d k ks ∈ k :: ks := by
  unfold pickKey
  rw [List.getD_eq_getElem _ _ (by simpa using Nat.mod_lt d (Nat.succ_pos _))]
  exact List.getElem_mem _

/-- Where no access of another agent falls inside the cycle, nothing lands after it. -/
theorem State.landAgents_nil (fb : Framebuffer) (ws : List PixelWrite) (h : t.scanWrites = []) :
    t.landAgents fb ws [] = t := by
  obtain ⟨⟩ := t
  simp_all [State.landAgents, seenDuring]

/-- What the engine's next cycle is (R121, R238). -/
theorem State.cycle_cases :
    (s.run = .halted ∧ s.cycle = .noStep) ∨
    (s.run = .running ∧ s.stopReq = true ∧ s.cycle = .stop) ∨
    (s.run = .running ∧ s.stopReq = false ∧ s.pcLegal = false ∧ s.cycle = .badPc) ∨
    (∃ i, s.canFetch ∧ decode s.fetch = .valid i ∧ s.cycle = .run i) ∨
    (∃ op, s.canFetch ∧ decode s.fetch = .invalidInstruction op ∧ s.cycle = .miss op) := by
  unfold State.cycle State.canFetch
  cases s.run <;> cases s.stopReq <;> cases s.pcLegal <;> cases decode s.fetch <;> simp

/-- A step, by whose turn it is (R268). -/
theorem step_cases :
    (s.turns = [] ∧ step s = engineTurn s []) ∨
    (∃ scan reads rest, s.turns = .engine scan reads :: rest ∧
      step s = engineTurn { s with turns := rest, scanWrites := scan } reads) ∨
    (∃ rest, s.turns = .delayTick :: rest ∧ step s = .next (State.tickDelay { s with turns := rest })) ∨
    (∃ rest, s.turns = .soundTick :: rest ∧ step s = .next (State.tickSound { s with turns := rest })) ∨
    (∃ k ks rest, s.turns = .setKey k ks :: rest ∧
      step s = .next (State.setKeyState { s with turns := rest } k ks)) ∨
    (∃ x y rest, s.turns = .getPixel x y :: rest ∧
      step s = .next (State.observePixel { s with turns := rest } x y)) ∨
    (∃ rest, s.turns = .raiseStop :: rest ∧ step s = .next (State.requestStop { s with turns := rest })) := by
  unfold step
  split <;> simp_all

/-- An engine's turn answers a next state exactly when its cycle does. -/
theorem engineTurn_next (reads : List MidRead) (h : engineTurn s reads = .next t) :
    ∃ u, engineCycle s = .next u ∧ t = u.landAgents s.fb s.cycleWrites reads := by
  unfold engineTurn onNext at h
  split at h
  · exact ⟨_, ‹_›, by simpa using h.symm⟩
  · cases h
  · cases h

end Sys2Proof.Machine
end

