-- ==== Sys2Proof/Laws/Engine.lean ====
section
/-! SUPPORT. What an instruction can do to the parts that few instructions touch, said once for all of them, and what a plain
engine step is (40_engine_cycle.md R121 to R127). -/

namespace Sys2Proof.Machine

variable (s t : State)

/-- What no instruction changes (10_state.md R31 to R36, R38). -/
theorem exec_keeps (i : Instr) (h : exec i s = .next t) :
    t.cfg = s.cfg ∧ t.key = s.key ∧ t.log = s.log ∧ t.stopReq = s.stopReq ∧ t.turns = s.turns ∧
      t.scanWrites = s.scanWrites ∧ t.seen = s.seen := by
  cases i <;> simp only [exec, execClearDisplay, execReturn, execJump, execCall, execSkipEqImm, execSkipNeqImm,
    execSkipEqReg, execSkipNeqReg, execJumpOffset, execLoadImm, execAddImm, execMove, execOr, execAnd, execXor,
    execAddWithCarry, execSubtract, execSubtractReversed, execShiftLeft, execShiftRight, execRandom, execDraw,
    execSkipKeyPressed, execSkipKeyNotPressed, execWaitKey, execReadDelay, execSetDelay, execSetSound, execLoadIndex,
    execAddIndex, execLoadFont, execStoreBcd, execStoreRegs, execLoadRegs] at h
  case returnFromSubroutine =>
    rcases s.pop_cases with ⟨_, e⟩ | ⟨_, e⟩ <;> rw [e] at h <;> cases h <;> simp
  case call nnn =>
    rcases s.push_cases (s.pc + 2) with ⟨_, e⟩ | ⟨_, e⟩ <;> rw [e] at h <;> cases h <;> simp
  case draw x y n => split_ifs at h <;> cases h <;> simp
  case waitKey x => split at h <;> cases h <;> simp
  case storeBcd x => split_ifs at h <;> cases h <;> simp
  case storeRegs x => split_ifs at h <;> cases h <;> simp
  case loadRegs x => split_ifs at h <;> cases h <;> simp
  all_goals cases h; simp

/-- An instruction leaves RUN and DIAG alone, or it halts and leaves all else alone. -/
theorem exec_halts_or_keeps (i : Instr) (h : exec i s = .next t) :
    (t.run = s.run ∧ t.diag = s.diag) ∨
      ∃ r, (r = .stackUnderflow ∨ r = .stackOverflow ∨ r = .outOfBounds) ∧ t = s.haltedWith r (some i.encode) := by
  cases i <;> simp only [exec, execClearDisplay, execReturn, execJump, execCall, execSkipEqImm, execSkipNeqImm,
    execSkipEqReg, execSkipNeqReg, execJumpOffset, execLoadImm, execAddImm, execMove, execOr, execAnd, execXor,
    execAddWithCarry, execSubtract, execSubtractReversed, execShiftLeft, execShiftRight, execRandom, execDraw,
    execSkipKeyPressed, execSkipKeyNotPressed, execWaitKey, execReadDelay, execSetDelay, execSetSound, execLoadIndex,
    execAddIndex, execLoadFont, execStoreBcd, execStoreRegs, execLoadRegs] at h
  case returnFromSubroutine =>
    rcases s.pop_cases with ⟨_, e⟩ | ⟨_, e⟩ <;> rw [e] at h <;> cases h
    · exact .inl ⟨rfl, rfl⟩
    · exact .inr ⟨.stackUnderflow, by simp, rfl⟩
  case call nnn =>
    rcases s.push_cases (s.pc + 2) with ⟨_, e⟩ | ⟨_, e⟩ <;> rw [e] at h <;> cases h
    · exact .inl ⟨rfl, rfl⟩
    · exact .inr ⟨.stackOverflow, by simp, rfl⟩
  case draw x y n =>
    split_ifs at h <;> cases h
    · exact .inl ⟨rfl, rfl⟩
    · exact .inr ⟨.outOfBounds, by simp, rfl⟩
  case waitKey x => split at h <;> cases h <;> exact .inl ⟨rfl, rfl⟩
  case storeBcd x =>
    split_ifs at h <;> cases h
    · exact .inl ⟨rfl, rfl⟩
    · exact .inr ⟨.outOfBounds, by simp, rfl⟩
  case storeRegs x =>
    split_ifs at h <;> cases h
    · exact .inl ⟨rfl, rfl⟩
    · exact .inr ⟨.outOfBounds, by simp, rfl⟩
  case loadRegs x =>
    split_ifs at h <;> cases h
    · exact .inl ⟨rfl, rfl⟩
    · exact .inr ⟨.outOfBounds, by simp, rfl⟩
  all_goals cases h; exact .inl ⟨rfl, rfl⟩

/-- What an instruction does to the timers: nothing, or it is the one that writes one of them (R28, R29). -/
theorem exec_timers (i : Instr) (h : exec i s = .next t) :
    (t.dt = s.dt ∨ ∃ x, i = .setDelay x ∧ t.dt = s.getV x) ∧ (t.st = s.st ∨ ∃ x, i = .setSound x ∧ t.st = s.getV x) := by
  cases i <;> simp only [exec, execClearDisplay, execReturn, execJump, execCall, execSkipEqImm, execSkipNeqImm,
    execSkipEqReg, execSkipNeqReg, execJumpOffset, execLoadImm, execAddImm, execMove, execOr, execAnd, execXor,
    execAddWithCarry, execSubtract, execSubtractReversed, execShiftLeft, execShiftRight, execRandom, execDraw,
    execSkipKeyPressed, execSkipKeyNotPressed, execWaitKey, execReadDelay, execSetDelay, execSetSound, execLoadIndex,
    execAddIndex, execLoadFont, execStoreBcd, execStoreRegs, execLoadRegs] at h
  case returnFromSubroutine => rcases s.pop_cases with ⟨_, e⟩ | ⟨_, e⟩ <;> rw [e] at h <;> cases h <;> simp
  case call nnn => rcases s.push_cases (s.pc + 2) with ⟨_, e⟩ | ⟨_, e⟩ <;> rw [e] at h <;> cases h <;> simp
  case waitKey x => split at h <;> cases h <;> simp
  case setDelay x => cases h; exact ⟨.inr ⟨x, rfl, rfl⟩, .inl rfl⟩
  case setSound x => cases h; exact ⟨.inl rfl, .inr ⟨x, rfl, rfl⟩⟩
  case draw x y n => split_ifs at h <;> cases h <;> simp
  case storeBcd x => split_ifs at h <;> cases h <;> simp
  case storeRegs x => split_ifs at h <;> cases h <;> simp
  case loadRegs x => split_ifs at h <;> cases h <;> simp
  all_goals cases h; simp

/-- The read of a byte depends on the configuration and the memory alone. -/
theorem State.readByte_congr {s t : State} (hc : t.cfg = s.cfg) (hm : t.ram = s.ram) (a : Nat) :
    t.readByte a = s.readByte a := by
  rw [State.readByte, State.readByte, hc, hm]

/-- The read of a pixel depends on the configuration and the framebuffer alone. -/
theorem State.getPixel_congr {s t : State} (hc : t.cfg = s.cfg) (hf : t.fb = s.fb) (x y : Nat) :
    t.getPixel x y = s.getPixel x y := by
  rw [State.getPixel, State.getPixel, hc, hf]

/-- The read of a register depends on the register file alone. -/
theorem State.getV_congr {s t : State} (hv : t.v = s.v) (r : Nibble) : t.getV r = s.getV r := by
  rw [State.getV, State.getV, hv]

/-- A cycle that answers keeps the key writes of the scan, which land after it. -/
theorem engineCycle_scanWrites (h : engineCycle s = .next t) : t.scanWrites = s.scanWrites := by
  unfold engineCycle at h
  split at h
  · cases h
  · cases h; rfl
  · cases h; rfl
  · cases h
    rcases s.decodeMiss_cases ‹_› with ⟨_, e⟩ | ⟨_, e⟩
    · rw [e]; rfl
    · rw [e]
  · exact (exec_keeps _ _ _ h).2.2.2.2.2.1

/-- Where it is the engine's plain turn, a step is one cycle. -/
theorem step_engine (h : s.engineMoves) : step s = engineCycle s := by
  unfold step
  rw [h.1]
  simp only [engineTurn, onNext]
  cases hc : engineCycle s with
  | fault e => rfl
  | refused e => rfl
  | next t => simp only [State.landAgents_nil _ _ _ ((engineCycle_scanWrites _ _ hc).trans h.2)]

/-- A run of one more step, on any machine. -/
theorem run_succ_of_next (m : Host.Core) (k : Nat) (a b : m.State) (h : m.step a = .next b) :
    m.run (k + 1) a = m.run k b := by
  rw [Host.Core.run, h]

/-- A run of one more step. -/
theorem run_succ (k : Nat) (h : step s = .next t) :
    Sys2Proof.core.run (k + 1) s = Sys2Proof.core.run k t :=
  run_succ_of_next Sys2Proof.core k s t h

end Sys2Proof.Machine
end

