-- ==== Sys2Proof/Laws/Agents.lean ====
section
/-! SUPPORT. What the accesses of the other agents inside an engine cycle do, said once: the keys a scan reads and the keypad after
it, what the renderer's reads answer, and the framebuffer between the pixel writes of a cycle (20_memory.md R73, R74). -/

namespace Sys2Proof.Machine

/-- A key write: its key holds its state, every other key as before. -/
theorem keyAt_setKeyAt (key : Vector KeyState 16) (k j : Nibble) (ks : KeyState) :
    keyAt (setKeyAt key k ks) j = if k = j then ks else keyAt key j := by
  unfold keyAt setKeyAt
  rw [Vector.getElem_set]
  simp only [← BitVec.toNat_inj]

/-- A sequence of key writes: each key holds what the last write to it gave it. -/
theorem keyAt_foldl (ws : List ScanWrite) (key : Vector KeyState 16) (j : Nibble) :
    keyAt (ws.foldl (fun key w => setKeyAt key w.key w.state) key) j =
      match (ws.filter fun w => decide (w.key = j)).getLast? with
      | some w => w.state
      | none => keyAt key j := by
  induction ws using List.reverseRecOn with
  | nil => rfl
  | append_singleton ws w ih =>
    rw [List.foldl_append, List.filter_append, List.foldl_cons, List.foldl_nil, keyAt_setKeyAt, ih]
    by_cases h : w.key = j <;> simp [h]

/-- The keypad a read of the scan sees, as a sequence of key writes. -/
theorem keypadAtRead_eq_foldl (ws : List ScanWrite) (key : Vector KeyState 16) (k : Nat) (hk : k < 16) :
    keypadAtRead ws key k = (landing ws k).foldl (fun key w => setKeyAt key w.key w.state) key := by
  have before : ∀ (b : Nat) (w : ScanWrite), b < 16 → (w.before = BitVec.ofNat 4 b ↔ w.before.toNat = b) := by
    intro b w hb
    rw [← BitVec.toNat_inj, BitVec.toNat_ofNat, Nat.mod_eq_of_lt (by omega)]
  induction k with
  | zero =>
    have e : landing ws 0 = ws.filter fun w => decide (w.before = 0) := by
      simp [landing, ← BitVec.toNat_inj]
    rw [e]; rfl
  | succ k ih =>
    have e : landing ws (k + 1) = landing ws k ++ ws.filter fun w => decide (w.before = BitVec.ofNat 4 (k + 1)) := by
      simp only [landing, List.range_succ (n := k + 1), List.flatMap_append, before (k + 1) _ hk]
      simp
    rw [e, List.foldl_append, ← ih (by omega)]; rfl

/-- The key a read of the scan sees (R73). -/
theorem keyAt_keypadAtRead (ws : List ScanWrite) (key : Vector KeyState 16) (k : Nat) (hk : k < 16) (j : Nibble) :
    keyAt (keypadAtRead ws key k) j = keyAfter ws key k j := by
  rw [keypadAtRead_eq_foldl ws key k hk, keyAt_foldl]; rfl

/-- The set of keys a poll finds Pressed, by the writes that have landed when each is read (R73, 43_display_keys.md R196). -/
theorem State.mem_pressedInScan_iff (s : State) (k : Nibble) :
    k ∈ s.pressedInScan ↔ keyAfter s.scanWrites s.key k.toNat k = .pressed := by
  rw [State.mem_pressedInScan, keyAt_keypadAtRead _ _ _ k.isLt]

/-- With no write inside the scan, every read of it sees the key as the keypad holds it. -/
@[simp] theorem keyAfter_nil (key : Vector KeyState 16) (k : Nat) (j : Nibble) : keyAfter [] key k j = keyAt key j := by
  have e : landing [] k = [] := List.flatMap_eq_nil_iff.2 fun _ _ => rfl
  rw [keyAfter, e]; rfl

/-- Pixel writes in two parts. -/
theorem Framebuffer.setAll_append (c : Config) (fb : Framebuffer) (ws vs : List PixelWrite) :
    fb.setAll c (ws ++ vs) = Framebuffer.setAll c (fb.setAll c ws) vs := List.foldl_append

/-- What the renderer's reads inside a cycle answer (R73, R74). -/
theorem seenDuring_eq (c : Config) (fb : Framebuffer) (ws : List PixelWrite) (reads : List MidRead) :
    seenDuring c fb ws reads = readsSeen c fb ws reads := by
  induction reads generalizing fb ws with
  | nil => rfl
  | cons r reads ih =>
    simp only [seenDuring, ih, readsSeen, List.mapIdx_cons, List.take_succ_cons, List.map_cons, List.sum_cons,
      List.take_zero, List.map_nil, List.sum_nil, List.take_add, Framebuffer.setAll_append]
    rfl

/-- The landing of the other agents' accesses meets its description. -/
theorem State.landAgents_landed (s t : State) (scan : List ScanWrite) (reads : List MidRead) (ws : List PixelWrite)
    (hc : t.cfg = s.cfg) (hk : t.key = s.key) (hw : t.scanWrites = scan) (hs : t.seen = s.seen) :
    Landed s scan reads ws t (t.landAgents s.fb ws reads) := by
  subst hw
  exact ⟨_, fun j => keyAt_keypadAtRead _ _ 15 (by omega) j, by rw [State.landAgents, seenDuring_eq, hc, hk, hs]⟩

/-- A step of an engine's turn that stands in the list is its cycle, and then the landing. -/
theorem step_turn (s : State) (scan : List ScanWrite) (reads : List MidRead) (rest : List Turn)
    (h : s.turns = .engine scan reads :: rest) : step s = engineTurn (s.onTurn scan rest) reads := by
  unfold step; rw [h]; rfl

/-- An engine's turn whose cycle answers. -/
theorem engineTurn_eq (s t : State) (reads : List MidRead) (h : engineCycle s = .next t) :
    engineTurn s reads = .next (t.landAgents s.fb s.cycleWrites reads) := by
  rw [engineTurn, h]; rfl

/-- What a cycle that answers keeps, and that LOG only grows. -/
theorem engineCycle_keeps (s t : State) (h : engineCycle s = .next t) :
    t.cfg = s.cfg ∧ t.key = s.key ∧ t.scanWrites = s.scanWrites ∧ t.seen = s.seen ∧ t.stopReq = s.stopReq ∧
      t.turns = s.turns ∧ ∃ more, t.log = s.log ++ more := by
  unfold engineCycle at h
  split at h
  · cases h
  · cases h; exact ⟨rfl, rfl, rfl, rfl, rfl, rfl, [], by simp [State.raise]⟩
  · cases h; exact ⟨rfl, rfl, rfl, rfl, rfl, rfl, [], by simp [State.raise]⟩
  · cases h
    rcases s.decodeMiss_cases ‹_› with ⟨_, e⟩ | ⟨_, e⟩ <;> rw [e]
    · exact ⟨rfl, rfl, rfl, rfl, rfl, rfl, [], by simp [State.haltedWith]⟩
    · exact ⟨rfl, rfl, rfl, rfl, rfl, rfl, _, rfl⟩
  · obtain ⟨hc, hk, hl, hq, ht, hw, hs⟩ := exec_keeps _ _ _ h
    exact ⟨hc, hk, hw, hs, hq, ht, [], by simp [hl]⟩

/-- An engine's turn that stands in the list, where its cycle answers: the cycle, and then the landing (R73, R74). -/
theorem step_turn_landed (s t : State) (scan : List ScanWrite) (reads : List MidRead) (rest : List Turn)
    (h : s.turns = .engine scan reads :: rest) (hc : engineCycle (s.onTurn scan rest) = .next t) :
    ∃ u, step s = .next u ∧ Landed s scan reads (s.onTurn scan rest).cycleWrites t u := by
  obtain ⟨h1, h2, h3, h4, -⟩ := engineCycle_keeps _ _ hc
  refine ⟨t.landAgents s.fb (s.onTurn scan rest).cycleWrites reads, ?_, State.landAgents_landed s t scan reads _ h1 h2 h3 h4⟩
  rw [step_turn s _ _ _ h, engineTurn_eq _ _ _ hc]; rfl

/-- The first writes of a sequence of inversions are those of its first coordinates. -/
theorem take_toggleWrites (c : Config) (fb : Framebuffer) (ps : List (Nat × Nat)) (k : Nat) :
    (toggleWrites c fb ps).take k = toggleWrites c fb (ps.take k) := by
  induction ps generalizing fb k with
  | nil => simp [toggleWrites]
  | cons p ps ih => cases k <;> simp [toggleWrites, ih]

/-- The cells the writes of the first `h` rows of `CLS` name: all of them, ascending. -/
theorem cells_of_rows (c : Config) (h : Nat) (hh : h ≤ c.fbH) :
    (((List.range h).flatMap fun y => (List.range c.fbW).map fun x => (PixelWrite.mk x y false)).map
      fun w => pixelCell c w.x w.y) = List.range (h * c.fbW) := by
  induction h with
  | zero => simp
  | succ h ih =>
    have row : ((List.range c.fbW).map fun x => (PixelWrite.mk x h false)).map (fun w => pixelCell c w.x w.y) =
        (List.range c.fbW).map fun x => h * c.fbW + x := by
      rw [List.map_map]
      refine List.map_congr_left fun x hx => ?_
      simp [pixelCell, Nat.mod_eq_of_lt (List.mem_range.1 hx), Nat.mod_eq_of_lt (show h < c.fbH by omega)]
    rw [List.range_succ, List.flatMap_append, List.map_append, ih (by omega), List.flatMap_singleton, row, Nat.succ_mul,
      List.range_add]

/-- The cells the writes of `CLS` name: all of them, ascending (R191). -/
theorem cells_clearWrites (c : Config) : (clearWrites c).map (fun w => pixelCell c w.x w.y) = List.range (c.fbH * c.fbW) :=
  cells_of_rows c c.fbH (Nat.le_refl _)

/-- The framebuffer after the first writes of `CLS`: the cells before the k-th are dark, the others as before. -/
theorem Framebuffer.mem_setAll_take_clearWrites (c : Config) (hc : c.wf = true) (fb : Framebuffer) (k m : Nat)
    (hm : m < c.fbH * c.fbW) : m ∈ fb.setAll c ((clearWrites c).take k) ↔ m ∈ fb ∧ k ≤ m := by
  have dark : ∀ w ∈ (clearWrites c).take k, w.lit = false :=
    fun w hw => (clearWrites_cover c hc 0 0).1 w (List.mem_of_mem_take hw)
  have cells : (∀ w ∈ (clearWrites c).take k, m ≠ pixelCell c w.x w.y) ↔ k ≤ m := by
    have e : ((clearWrites c).take k).map (fun w => pixelCell c w.x w.y) = (List.range (c.fbH * c.fbW)).take k := by
      rw [List.map_take, cells_clearWrites]
    have e' : (∀ w ∈ (clearWrites c).take k, m ≠ pixelCell c w.x w.y) ↔ m ∉ (List.range (c.fbH * c.fbW)).take k := by
      rw [← e, List.mem_map]
      exact ⟨fun h ⟨w, hw, e⟩ => h w hw e.symm, fun h w hw e => h ⟨w, hw, e.symm⟩⟩
    rw [e', List.take_range, List.mem_range]; omega
  rw [Framebuffer.mem_setAll_dark c _ dark, cells]

end Sys2Proof.Machine
end

