-- ==== Sys2Proof/Laws/Fields.lean ====
section
/-! SUPPORT. The bits of an opcode built from its fields, and the fields of such an opcode (30_encoding.md R91, R92). -/

namespace Sys2Proof

/-- The bits of an `NNN` opcode. -/
theorem getLsbD_formatNNN (top : Nibble) (nnn : Addr) (j : Nat) :
    (formatNNN top nnn).getLsbD j = if j < 12 then nnn.getLsbD j else top.getLsbD (j - 12) :=
  BitVec.getLsbD_append

/-- The bits of an `XKK` or `XSUB` opcode. -/
theorem getLsbD_formatXKK (top x : Nibble) (kk : Byte) (j : Nat) :
    (formatXKK top x kk).getLsbD j =
      if j < 8 then kk.getLsbD j else if j - 8 < 4 then x.getLsbD (j - 8) else top.getLsbD (j - 8 - 4) :=
  BitVec.getLsbD_append.trans (by rw [BitVec.getLsbD_append])

/-- The bits of an `XY` or `XYN` opcode. -/
theorem getLsbD_formatXYN (top x y n : Nibble) (j : Nat) :
    (formatXYN top x y n).getLsbD j =
      if j < 4 then n.getLsbD j else if j - 4 < 4 then y.getLsbD (j - 4)
      else if j - 4 - 4 < 4 then x.getLsbD (j - 4 - 4) else top.getLsbD (j - 4 - 4 - 4) :=
  BitVec.getLsbD_append.trans (by rw [BitVec.getLsbD_append, BitVec.getLsbD_append])

/-- The fields of an `NNN` opcode. -/
theorem fields_formatNNN (top : Nibble) (nnn : Addr) :
    opTop (formatNNN top nnn) = top ∧ opNNN (formatNNN top nnn) = nnn := by
  constructor <;> apply BitVec.eq_of_getLsbD_eq <;> intro j hj <;>
    simp only [opTop, opNNN, BitVec.getLsbD_extractLsb', getLsbD_formatNNN] <;> interval_cases j <;> simp

/-- The fields of an `XKK` or `XSUB` opcode. -/
theorem fields_formatXKK (top x : Nibble) (kk : Byte) :
    opTop (formatXKK top x kk) = top ∧ opX (formatXKK top x kk) = x ∧ opKK (formatXKK top x kk) = kk := by
  refine ⟨?_, ?_, ?_⟩ <;> apply BitVec.eq_of_getLsbD_eq <;> intro j hj <;>
    simp only [opTop, opX, opKK, BitVec.getLsbD_extractLsb', getLsbD_formatXKK] <;> interval_cases j <;> simp

/-- The fields of an `XY` or `XYN` opcode. -/
theorem fields_formatXYN (top x y n : Nibble) :
    opTop (formatXYN top x y n) = top ∧ opX (formatXYN top x y n) = x ∧ opY (formatXYN top x y n) = y ∧
      opN (formatXYN top x y n) = n := by
  refine ⟨?_, ?_, ?_, ?_⟩ <;> apply BitVec.eq_of_getLsbD_eq <;> intro j hj <;>
    simp only [opTop, opX, opY, opN, BitVec.getLsbD_extractLsb', getLsbD_formatXYN] <;> interval_cases j <;> simp

/-- The bits of an opcode of two bytes (20_memory.md R62). -/
theorem getLsbD_opcodeOf (hi lo : Byte) (j : Nat) :
    (opcodeOf hi lo).getLsbD j = if j < 8 then lo.getLsbD j else hi.getLsbD (j - 8) :=
  BitVec.getLsbD_append

/-- An opcode is its two bytes, the first above the second (20_memory.md R62). -/
theorem opcodeOf_bytes (op : Word) : opcodeOf (opcodeHi op) (opcodeLo op) = op := by
  apply BitVec.eq_of_getLsbD_eq
  intro j hj
  rw [getLsbD_opcodeOf, opcodeHi, opcodeLo, BitVec.getLsbD_extractLsb', BitVec.getLsbD_extractLsb']
  interval_cases j <;> simp

end Sys2Proof
end

