-- ==== Sys2Proof/Laws/PerInstr.lean ====
section
/-! SUPPORT. The family EncodingRow: every instruction's encoding lies in its row of the opcode map (30_encoding.md R96). -/

namespace Sys2Proof

/-- Under the mask 0xF000 an `NNN` opcode is its key. -/
theorem formatNNN_key (top : Nibble) (nnn : Addr) : formatNNN top nnn &&& 0xF000#16 = formatNNN top 0 := by
  apply BitVec.eq_of_getLsbD_eq
  intro j hj
  rw [BitVec.getLsbD_and, getLsbD_formatNNN, getLsbD_formatNNN]
  interval_cases j <;> simp

/-- Under the mask 0xF000 an `XKK` opcode is its key. -/
theorem formatXKK_key (top x : Nibble) (kk : Byte) : formatXKK top x kk &&& 0xF000#16 = formatXKK top 0 0 := by
  apply BitVec.eq_of_getLsbD_eq
  intro j hj
  rw [BitVec.getLsbD_and, getLsbD_formatXKK, getLsbD_formatXKK]
  interval_cases j <;> simp

/-- Under the mask 0xF0FF an `XSUB` opcode is its key and its low byte. -/
theorem formatXKK_sub (top x : Nibble) (kk : Byte) : formatXKK top x kk &&& 0xF0FF#16 = formatXKK top 0 kk := by
  apply BitVec.eq_of_getLsbD_eq
  intro j hj
  rw [BitVec.getLsbD_and, getLsbD_formatXKK, getLsbD_formatXKK]
  interval_cases j <;> simp

/-- Under the mask 0xF000 an `XY` or `XYN` opcode is its key. -/
theorem formatXYN_key (top x y n : Nibble) : formatXYN top x y n &&& 0xF000#16 = formatXYN top 0 0 0 := by
  apply BitVec.eq_of_getLsbD_eq
  intro j hj
  rw [BitVec.getLsbD_and, getLsbD_formatXYN, getLsbD_formatXYN]
  interval_cases j <;> simp

/-- Under the mask 0xF00F an `XY` opcode is its key and its low nibble. -/
theorem formatXYN_sub (top x y n : Nibble) : formatXYN top x y n &&& 0xF00F#16 = formatXYN top 0 0 n := by
  apply BitVec.eq_of_getLsbD_eq
  intro j hj
  rw [BitVec.getLsbD_and, getLsbD_formatXYN, getLsbD_formatXYN]
  interval_cases j <;> simp

/-- The ignored low nibble of families 5 and 9. -/
theorem formatXYN_low (top x y n : Nibble) : formatXYN top x y n &&& 0x000F#16 = formatXYN 0 0 0 n := by
  apply BitVec.eq_of_getLsbD_eq
  intro j hj
  rw [BitVec.getLsbD_and, getLsbD_formatXYN, getLsbD_formatXYN]
  interval_cases j <;> simp

/-- The ignored `y` of the shifts. -/
theorem formatXYN_y (top x y n : Nibble) : formatXYN top x y n &&& 0x00F0#16 = formatXYN 0 0 y 0 := by
  apply BitVec.eq_of_getLsbD_eq
  intro j hj
  rw [BitVec.getLsbD_and, getLsbD_formatXYN, getLsbD_formatXYN]
  interval_cases j <;> simp

end Sys2Proof

namespace Sys2Proof.Laws.EncodingRow

/-- Under its row's mask, an instruction's opcode is its row's bits, and the digits its row ignores are 0. -/
def Statement (i : Instr) : Prop :=
  i.encode &&& i.row.mask = i.row.bits ∧ i.encode &&& i.row.ignored = 0

theorem clearDisplay : Statement .clearDisplay :=
  ⟨rfl, BitVec.and_zero⟩

theorem returnFromSubroutine : Statement .returnFromSubroutine :=
  ⟨rfl, BitVec.and_zero⟩

theorem jump (nnn : Addr) : Statement (.jump nnn) :=
  ⟨(formatNNN_key _ _).trans rfl, BitVec.and_zero⟩

theorem call (nnn : Addr) : Statement (.call nnn) :=
  ⟨(formatNNN_key _ _).trans rfl, BitVec.and_zero⟩

theorem skipEqImm (x : Nibble) (kk : Byte) : Statement (.skipEqImm x kk) :=
  ⟨(formatXKK_key _ _ _).trans rfl, BitVec.and_zero⟩

theorem skipNeqImm (x : Nibble) (kk : Byte) : Statement (.skipNeqImm x kk) :=
  ⟨(formatXKK_key _ _ _).trans rfl, BitVec.and_zero⟩

theorem skipEqReg (x : Nibble) (y : Nibble) : Statement (.skipEqReg x y) :=
  ⟨(formatXYN_key _ _ _ _).trans rfl, (formatXYN_low _ _ _ _).trans rfl⟩

theorem loadImm (x : Nibble) (kk : Byte) : Statement (.loadImm x kk) :=
  ⟨(formatXKK_key _ _ _).trans rfl, BitVec.and_zero⟩

theorem addImm (x : Nibble) (kk : Byte) : Statement (.addImm x kk) :=
  ⟨(formatXKK_key _ _ _).trans rfl, BitVec.and_zero⟩

theorem move (x : Nibble) (y : Nibble) : Statement (.move x y) :=
  ⟨(formatXYN_sub _ _ _ _).trans rfl, BitVec.and_zero⟩

theorem or (x : Nibble) (y : Nibble) : Statement (.or x y) :=
  ⟨(formatXYN_sub _ _ _ _).trans rfl, BitVec.and_zero⟩

theorem and (x : Nibble) (y : Nibble) : Statement (.and x y) :=
  ⟨(formatXYN_sub _ _ _ _).trans rfl, BitVec.and_zero⟩

theorem xor (x : Nibble) (y : Nibble) : Statement (.xor x y) :=
  ⟨(formatXYN_sub _ _ _ _).trans rfl, BitVec.and_zero⟩

theorem addWithCarry (x : Nibble) (y : Nibble) : Statement (.addWithCarry x y) :=
  ⟨(formatXYN_sub _ _ _ _).trans rfl, BitVec.and_zero⟩

theorem subtract (x : Nibble) (y : Nibble) : Statement (.subtract x y) :=
  ⟨(formatXYN_sub _ _ _ _).trans rfl, BitVec.and_zero⟩

theorem shiftRight (x : Nibble) : Statement (.shiftRight x) :=
  ⟨(formatXYN_sub _ _ _ _).trans rfl, (formatXYN_y _ _ _ _).trans rfl⟩

theorem subtractReversed (x : Nibble) (y : Nibble) : Statement (.subtractReversed x y) :=
  ⟨(formatXYN_sub _ _ _ _).trans rfl, BitVec.and_zero⟩

theorem shiftLeft (x : Nibble) : Statement (.shiftLeft x) :=
  ⟨(formatXYN_sub _ _ _ _).trans rfl, (formatXYN_y _ _ _ _).trans rfl⟩

theorem skipNeqReg (x : Nibble) (y : Nibble) : Statement (.skipNeqReg x y) :=
  ⟨(formatXYN_key _ _ _ _).trans rfl, (formatXYN_low _ _ _ _).trans rfl⟩

theorem loadIndex (nnn : Addr) : Statement (.loadIndex nnn) :=
  ⟨(formatNNN_key _ _).trans rfl, BitVec.and_zero⟩

theorem jumpOffset (nnn : Addr) : Statement (.jumpOffset nnn) :=
  ⟨(formatNNN_key _ _).trans rfl, BitVec.and_zero⟩

theorem random (x : Nibble) (kk : Byte) : Statement (.random x kk) :=
  ⟨(formatXKK_key _ _ _).trans rfl, BitVec.and_zero⟩

theorem draw (x : Nibble) (y : Nibble) (n : Nibble) : Statement (.draw x y n) :=
  ⟨(formatXYN_key _ _ _ _).trans rfl, BitVec.and_zero⟩

theorem skipKeyPressed (x : Nibble) : Statement (.skipKeyPressed x) :=
  ⟨(formatXKK_sub _ _ _).trans rfl, BitVec.and_zero⟩

theorem skipKeyNotPressed (x : Nibble) : Statement (.skipKeyNotPressed x) :=
  ⟨(formatXKK_sub _ _ _).trans rfl, BitVec.and_zero⟩

theorem readDelay (x : Nibble) : Statement (.readDelay x) :=
  ⟨(formatXKK_sub _ _ _).trans rfl, BitVec.and_zero⟩

theorem waitKey (x : Nibble) : Statement (.waitKey x) :=
  ⟨(formatXKK_sub _ _ _).trans rfl, BitVec.and_zero⟩

theorem setDelay (x : Nibble) : Statement (.setDelay x) :=
  ⟨(formatXKK_sub _ _ _).trans rfl, BitVec.and_zero⟩

theorem setSound (x : Nibble) : Statement (.setSound x) :=
  ⟨(formatXKK_sub _ _ _).trans rfl, BitVec.and_zero⟩

theorem addIndex (x : Nibble) : Statement (.addIndex x) :=
  ⟨(formatXKK_sub _ _ _).trans rfl, BitVec.and_zero⟩

theorem loadFont (x : Nibble) : Statement (.loadFont x) :=
  ⟨(formatXKK_sub _ _ _).trans rfl, BitVec.and_zero⟩

theorem storeBcd (x : Nibble) : Statement (.storeBcd x) :=
  ⟨(formatXKK_sub _ _ _).trans rfl, BitVec.and_zero⟩

theorem storeRegs (x : Nibble) : Statement (.storeRegs x) :=
  ⟨(formatXKK_sub _ _ _).trans rfl, BitVec.and_zero⟩

theorem loadRegs (x : Nibble) : Statement (.loadRegs x) :=
  ⟨(formatXKK_sub _ _ _).trans rfl, BitVec.and_zero⟩

end Sys2Proof.Laws.EncodingRow
end

