-- ==== Sys2Proof/Tests/Slice0.lean ====
section
/-! SUPPORT. The model's own tests. Expected values come from the spec's derived vectors (95_test_vectors.md, the part named in each
comment). The theorems test_witness_… show, for each obligation with hypotheses, states and operands that meet them. -/

namespace Sys2Proof.Tests

open Sys2Proof Sys2Proof.Machine

set_option Elab.async false

/-! ### Helpers -/

/-- The outcome is a next state with the property. -/
def holds (r : Result) (p : State → Bool) : Bool :=
  match r with
  | .next t => p t
  | _ => false

/-- A next state with the property exists where `holds` says so. -/
theorem exists_of_holds (r : Result) (p : State → Bool) (h : holds r p = true) : ∃ t, r = .next t ∧ p t = true := by
  cases r with
  | next t => exact ⟨t, rfl, h⟩
  | fault e => cases h
  | refused e => cases h

/-- The grid of the vectors: 64 columns, 32 rows. -/
def demoConfig : Config := { Config.reference with fbW := 64, fbH := 32 }

/-- The state of the vectors before what a row lists. -/
def demo : State := State.resetWith demoConfig

/-- The start of a vector: registers, I and the pc; the opcode under test stands at the pc. -/
def start (regs : List (Nibble × Byte)) (i pc op : Word) : State :=
  ({ regs.foldl (fun s r => s.setV r.1 r.2) demo with i := i, pc := pc } : State).placeOpcode op

/-- The start of a vector at 0x200 with I = 0. -/
def start0 (regs : List (Nibble × Byte)) (op : Word) : State := start regs 0 0x200 op

/-- V[x] holds `a`, VF holds `f`, and the pc has advanced to 0x202. -/
def alu (x : Nibble) (a f : Byte) (t : State) : Bool :=
  decide (t.getV x = a ∧ t.getV 0xF = f ∧ t.pc = 0x202)

/-- The engine has halted with this DIAG. -/
def halted (r : HaltReason) (pc : Word) (op : Option Word) (t : State) : Bool :=
  decide (t.run = .halted ∧ t.diag = { reason := r, pc := pc, opcodeValid := op.isSome, opcode := op.getD 0 })

/-- The bytes from an address on. -/
def ramIs (a : Nat) (bs : List Byte) (t : State) : Bool := decide (t.readBytes a bs.length = bs)

/-! ### The decoder: words written out from the encodings, every instruction (2.1) -/

theorem test_decode_family0 : decode 0x00E0 = .valid .clearDisplay ∧ decode 0x00EE = .valid .returnFromSubroutine := by
  decide +kernel

theorem test_decode_families_1_to_7 :
    decode 0x1ABC = .valid (.jump 0xABC) ∧ decode 0x2300 = .valid (.call 0x300) ∧
    decode 0x332A = .valid (.skipEqImm 0x3 0x2A) ∧ decode 0x432A = .valid (.skipNeqImm 0x3 0x2A) ∧
    decode 0x5120 = .valid (.skipEqReg 0x1 0x2) ∧ decode 0x512F = .valid (.skipEqReg 0x1 0x2) ∧
    decode 0x6A42 = .valid (.loadImm 0xA 0x42) ∧ decode 0x7120 = .valid (.addImm 0x1 0x20) := by decide +kernel

theorem test_decode_family8 :
    decode 0x8120 = .valid (.move 0x1 0x2) ∧ decode 0x8121 = .valid (.or 0x1 0x2) ∧
    decode 0x8122 = .valid (.and 0x1 0x2) ∧ decode 0x8123 = .valid (.xor 0x1 0x2) ∧
    decode 0x8AB4 = .valid (.addWithCarry 0xA 0xB) ∧ decode 0x8125 = .valid (.subtract 0x1 0x2) ∧
    decode 0x8AB6 = .valid (.shiftRight 0xA) ∧ decode 0x8127 = .valid (.subtractReversed 0x1 0x2) ∧
    decode 0x840E = .valid (.shiftLeft 0x4) := by decide +kernel

theorem test_decode_families_9_to_D :
    decode 0x9AB7 = .valid (.skipNeqReg 0xA 0xB) ∧ decode 0xA2F0 = .valid (.loadIndex 0x2F0) ∧
    decode 0xB300 = .valid (.jumpOffset 0x300) ∧ decode 0xC30F = .valid (.random 0x3 0x0F) ∧
    decode 0xD125 = .valid (.draw 0x1 0x2 0x5) := by decide +kernel

theorem test_decode_families_E_F :
    decode 0xE59E = .valid (.skipKeyPressed 0x5) ∧ decode 0xE5A1 = .valid (.skipKeyNotPressed 0x5) ∧
    decode 0xF207 = .valid (.readDelay 0x2) ∧ decode 0xF30A = .valid (.waitKey 0x3) ∧
    decode 0xF215 = .valid (.setDelay 0x2) ∧ decode 0xF218 = .valid (.setSound 0x2) ∧
    decode 0xF11E = .valid (.addIndex 0x1) ∧ decode 0xF429 = .valid (.loadFont 0x4) ∧
    decode 0xF033 = .valid (.storeBcd 0x0) ∧ decode 0xFF55 = .valid (.storeRegs 0xF) ∧
    decode 0xFE65 = .valid (.loadRegs 0xE) := by decide +kernel

/-- The same words from the encoder, one a format. -/
theorem test_encode :
    (Instr.jump 0xABC).encode = 0x1ABC ∧ (Instr.skipEqImm 0x3 0x2A).encode = 0x332A ∧
    (Instr.subtract 0x1 0x2).encode = 0x8125 ∧ (Instr.shiftLeft 0x4).encode = 0x840E ∧
    (Instr.draw 0x1 0x2 0x5).encode = 0xD125 ∧ (Instr.storeRegs 0xF).encode = 0xFF55 := by decide +kernel

/-- Opcodes outside the table are rejected by name, with their bits (2.1). -/
theorem test_invalid_rejected :
    (([0x0000, 0x0001, 0x00E1, 0x00ED, 0x00EF, 0x00FE, 0x0123, 0x0FFF, 0x8008, 0x8129, 0x812A, 0x812B] ++
      [0x812C, 0x812D, 0x812F, 0x8FFF, 0xE000, 0xE09D, 0xE09F, 0xE0A0, 0xE0A2, 0xE19F, 0xEFFF, 0xF000] ++
      [0xF006, 0xF008, 0xF00B, 0xF01F, 0xF034, 0xF056, 0xF064, 0xF066, 0xF075, 0xF085, 0xF0FF] : List Word).all
      fun op => decide (decode op = .invalidInstruction op)) = true := by decide +kernel

theorem test_bytes_big_endian :
    decodeBytes [0x6A, 0x42, 0x12] = .ok (.loadImm 0xA 0x42, [0x12]) ∧ decodeBytes [0x6A] = .error .truncated ∧
    decodeTableWord 16 0x1ABC = some (.jump 0xABC) := by decide +kernel

/-- What is placed for a table word is what the very next step runs. -/
theorem test_fetch_word : holds (step (State.reset.withFetchWord 16 0x6A42)) (alu 0xA 0x42 0) = true := by
  decide +kernel

/-! ### Checks before a run, with an ill-formed term for each (R281, R283) -/

theorem test_wf_accepts : demoConfig.wf = true ∧ imageFits [0x12, 0x00] = true := by decide +kernel
theorem test_wf_refuses_no_column : ({ demoConfig with fbW := 0 } : Config).wf = false := by decide +kernel
theorem test_wf_refuses_no_row : ({ demoConfig with fbH := 0 } : Config).wf = false := by decide +kernel
theorem test_wf_refuses_short_font : ({ demoConfig with font := [0xF0] } : Config).wf = false := by decide +kernel
theorem test_wf_refuses_font_in_program : ({ demoConfig with fontBase := 0x1B1 } : Config).wf = false := by decide +kernel
theorem test_wf_refuses_long_image (rom : List Byte) (h : rom.length = 3585) : imageFits rom = false := by
  rw [imageFits, h]; rfl

/-! ### Control flow (2.2) -/

theorem test_clear : holds (step ({ start [(0xF, 9)] 0 0x200 0x00E0 with fb := [0, 7] } : State))
    (fun t => decide (t.fb = [] ∧ t.getV 0xF = 9 ∧ t.pc = 0x202)) = true := by decide +kernel

theorem test_return : holds (step ({ start [] 0 0x300 0x00EE with
      sp := 2, stack := (demo.stack.set 0 0x206).set 1 0x20A } : State))
    (fun t => decide (t.pc = 0x20A ∧ t.sp = 1)) = true := by decide +kernel

theorem test_return_underflow :
    holds (step (start [] 0 0x300 0x00EE)) (halted .stackUnderflow 0x300 (some 0x00EE)) = true := by decide +kernel

theorem test_jump : holds (step (start [] 0 0x200 0x1ABC)) (fun t => decide (t.pc = 0xABC)) = true := by decide +kernel

theorem test_call_at_top : holds (step (start [] 0 0xFFE 0x2300))
    (fun t => decide (t.stack[0] = 0x1000 ∧ t.sp = 1 ∧ t.pc = 0x300)) = true := by decide +kernel

theorem test_call_overflow : holds (step ({ start [] 0 0x204 0x2300 with sp := 16 } : State))
    (fun t => halted .stackOverflow 0x204 (some 0x2300) t && decide (t.sp = 16 ∧ t.pc = 0x204)) = true := by decide +kernel

theorem test_skip_eq_imm : holds (step (start [(3, 0x2A)] 0 0x210 0x332A)) (fun t => decide (t.pc = 0x214)) = true := by
  decide +kernel
theorem test_skip_eq_imm_at_top : holds (step (start [] 0 0xFFE 0x3000)) (fun t => decide (t.pc = 0x1002)) = true := by
  decide +kernel
theorem test_skip_neq_imm : holds (step (start [(3, 0x2A)] 0 0x210 0x432A)) (fun t => decide (t.pc = 0x212)) = true := by
  decide +kernel
theorem test_skip_eq_reg :
    holds (step (start [(1, 7), (2, 8)] 0 0x220 0x5120)) (fun t => decide (t.pc = 0x222)) = true := by decide +kernel
theorem test_skip_neq_reg :
    holds (step (start [(1, 7), (2, 8)] 0 0x220 0x9120)) (fun t => decide (t.pc = 0x224)) = true := by decide +kernel
theorem test_jump_offset : holds (step (start [(0, 0xFF)] 0 0x200 0xBFFF)) (fun t => decide (t.pc = 0x10FE)) = true := by
  decide +kernel

/-! ### Moves, arithmetic, logic, shifts, random (2.3, 2.4) -/

theorem test_load_imm : holds (step (start0 [] 0x6A42)) (alu 0xA 0x42 0) = true := by decide +kernel
theorem test_add_imm_wraps : holds (step (start0 [(1, 0xFF), (0xF, 7)] 0x7101)) (alu 1 0x00 7) = true := by decide +kernel
theorem test_move : holds (step (start0 [(1, 1), (2, 0x33)] 0x8120)) (alu 1 0x33 0) = true := by decide +kernel
theorem test_or : holds (step (start0 [(1, 0x0C), (2, 0x0A), (0xF, 0x55)] 0x8121)) (alu 1 0x0E 0x55) = true := by decide +kernel
theorem test_and : holds (step (start0 [(1, 0x0C), (2, 0x0A), (0xF, 0x55)] 0x8122)) (alu 1 0x08 0x55) = true := by decide +kernel
theorem test_xor : holds (step (start0 [(1, 0x0C), (2, 0x0A), (0xF, 0x55)] 0x8123)) (alu 1 0x06 0x55) = true := by decide +kernel
theorem test_add_carry : holds (step (start0 [(1, 0xFF), (0xF, 1)] 0x81F4)) (alu 1 0x00 1) = true := by decide +kernel
theorem test_add_into_flag : holds (step (start0 [(1, 2), (0xF, 3)] 0x8F14)) (alu 0xF 0x05 5) = true := by decide +kernel
theorem test_sub_borrow : holds (step (start0 [(1, 5), (2, 0x0A)] 0x8125)) (alu 1 0xFB 0) = true := by decide +kernel
theorem test_sub_equal : holds (step (start0 [(1, 7), (2, 7)] 0x8125)) (alu 1 0x00 1) = true := by decide +kernel
theorem test_subn : holds (step (start0 [(1, 5), (2, 0x0A)] 0x8127)) (alu 1 0x05 1) = true := by decide +kernel
theorem test_subn_borrow : holds (step (start0 [(1, 0x0A), (2, 5)] 0x8127)) (alu 1 0xFB 0) = true := by decide +kernel
theorem test_shr_ignores_y : holds (step (start0 [(1, 4), (2, 0xFF)] 0x8126)) (alu 1 0x02 0) = true := by decide +kernel
theorem test_shr_into_flag : holds (step (start0 [(0xF, 2)] 0x8F06)) (alu 0xF 0x01 1) = true := by decide +kernel
theorem test_shl : holds (step (start0 [(4, 0x86)] 0x840E)) (alu 4 0x0C 1) = true := by decide +kernel
theorem test_shl_into_flag : holds (step (start0 [(0xF, 0x81)] 0x8F0E)) (alu 0xF 0x02 2) = true := by decide +kernel

/-- Whatever byte is drawn, the mask 0x00 gives 0x00. -/
theorem test_random_mask_zero : ∃ t, step (start0 [(3, 9)] 0xC300) = .next t ∧ t.getV 3 = 0 ∧ t.pc = 0x202 :=
  ⟨_, rfl, by show Config.drawByte 0 &&& 0 = 0; simp, rfl⟩

/-! ### Display and keypad (2.5, 2.6) -/

/-- The sprite row 0xFF at (62, 31) wraps at the right edge. -/
theorem test_draw_wraps :
    holds (step (State.writeBytes (start [(1, 0x3E), (2, 0x1F)] 0x300 0x200 0xD121) 0x300 [0xFF]))
      (fun t => decide (t.fb = [1984, 1985, 1986, 1987, 1988, 1989, 2046, 2047] ∧ t.getV 0xF = 0)) = true := by decide +kernel

/-- On a 4 by 4 grid the row 0xF8 toggles the cell (0, 0) twice. -/
theorem test_draw_small_grid :
    holds (step (State.writeBytes { start [] 0x300 0x200 0xD121 with cfg := { demoConfig with fbW := 4, fbH := 4 } }
        0x300 [0xF8]))
      (fun t => decide (t.fb = [1, 2, 3] ∧ t.getV 0xF = 1)) = true := by decide +kernel

theorem test_draw_out_of_bounds : holds (step (start [(0xF, 9)] 0xFFF 0x200 0xD122))
    (fun t => halted .outOfBounds 0x200 (some 0xD122) t && decide (t.fb = [] ∧ t.getV 0xF = 9)) = true := by decide +kernel

theorem test_skip_key : holds (step (State.setKeyState (start [(5, 0x1A)] 0 0x230 0xE59E) 0xA .pressed))
    (fun t => decide (t.pc = 0x234)) = true := by decide +kernel
theorem test_skip_no_key : holds (step (start [(5, 0xF7)] 0 0x230 0xE5A1)) (fun t => decide (t.pc = 0x234)) = true := by
  decide +kernel
theorem test_wait_key : holds (step (State.setKeyState (start [(3, 0x55)] 0 0x240 0xF30A) 0xC .pressed))
    (fun t => decide (t.getV 3 = 0x0C ∧ t.pc = 0x242)) = true := by decide +kernel
theorem test_wait_no_key : holds (step (start [(3, 0x55)] 0 0x240 0xF30A))
    (fun t => decide (t = start [(3, 0x55)] 0 0x240 0xF30A)) = true := by decide +kernel

/-! ### Timers, address register, memory (2.7, 2.8) -/

theorem test_read_delay : holds (step ({ start0 [] 0xF207 with dt := 0x1E } : State))
    (fun t => decide (t.getV 2 = 0x1E ∧ t.dt = 0x1E)) = true := by decide +kernel
theorem test_set_delay : holds (step ({ start0 [] 0xF215 with dt := 0x20 } : State))
    (fun t => decide (t.dt = 0x00)) = true := by decide +kernel
theorem test_set_sound : holds (step (start0 [(2, 5)] 0xF218)) (fun t => decide (t.st = 5 ∧ t.dt = 0)) = true := by decide +kernel
theorem test_load_index : holds (step (start0 [] 0xA2F0)) (fun t => decide (t.i = 0x02F0)) = true := by decide +kernel
theorem test_add_index_wraps : holds (step (start [(1, 0xFF), (0xF, 9)] 0xFFFF 0x200 0xF11E))
    (fun t => decide (t.i = 0x00FE ∧ t.getV 0xF = 9)) = true := by decide +kernel
theorem test_load_font : holds (step (start0 [(4, 0x1A)] 0xF429)) (fun t => decide (t.i = 0x0032)) = true := by decide +kernel
theorem test_bcd : holds (step (start [(0, 0xEA)] 0xFFD 0x200 0xF033)) (ramIs 0xFFD [2, 3, 4]) = true := by decide +kernel
theorem test_bcd_out_of_bounds : holds (step (start [(0, 0xFF)] 0xFFE 0x200 0xF033))
    (fun t => halted .outOfBounds 0x200 (some 0xF033) t && ramIs 0xFFE [0, 0] t) = true := by decide +kernel
theorem test_store_regs : holds (step (start [(0, 0x10), (1, 0x11), (2, 0x12), (3, 0x13), (4, 0x14)] 0x400 0x200 0xF355))
    (fun t => ramIs 0x400 [0x10, 0x11, 0x12, 0x13, 0x00] t && decide (t.i = 0x400)) = true := by decide +kernel
theorem test_store_regs_out_of_bounds : holds (step (start [(0, 0xAA), (1, 0xBB)] 0xFFF 0x200 0xF155))
    (fun t => halted .outOfBounds 0x200 (some 0xF155) t && ramIs 0xFFF [0] t) = true := by decide +kernel
theorem test_load_regs :
    holds (step (State.writeBytes (start [(3, 0x11), (4, 0x11)] 0x400 0x200 0xF365) 0x400 [0xA0, 0xA1, 0xA2, 0xA3, 0xA4]))
      (fun t => decide (t.getV 0 = 0xA0 ∧ t.getV 3 = 0xA3 ∧ t.getV 4 = 0x11 ∧ t.i = 0x400)) = true := by decide +kernel
theorem test_load_regs_out_of_bounds : holds (step (start [(0, 9)] 0xFFF 0x200 0xF165))
    (fun t => halted .outOfBounds 0x200 (some 0xF165) t && decide (t.getV 0 = 9)) = true := by decide +kernel

/-! ### Engine, halts, policy, the other agents (2.9) -/

theorem test_miss_skip : holds (step State.reset)
    (fun t => decide (t.log = [⟨0x0000, 0x200⟩] ∧ t.pc = 0x202 ∧ t.run = .running)) = true := by decide +kernel
theorem test_miss_fatal :
    holds (step ({ demo with cfg := { demoConfig with invalidPolicy := .fatal } } : State))
      (fun t => halted .decodeMiss 0x200 (some 0x0000) t && decide (t.log = [] ∧ t.pc = 0x200)) = true := by decide +kernel
theorem test_stop_before_bad_pc : holds (step ({ demo with pc := 0x201, stopReq := true } : State))
    (halted .stopped 0x201 none) = true := by decide +kernel
theorem test_pc_odd : holds (step ({ demo with pc := 0xABD } : State)) (halted .outOfBounds 0xABD none) = true := by decide +kernel

/-- A key write that lands inside the key scan before the read of its key is seen by that read; the keypad holds it
afterwards (R73). -/
theorem test_key_lands_in_scan :
    holds (step ({ start [] 0 0x200 0xF30A with turns := [.engine [⟨0xC, 0xC, .pressed⟩] []] } : State))
      (fun t => decide (t.getV 3 = 0x0C ∧ keyAt t.key 0xC = .pressed ∧ t.scanWrites = [])) = true := by decide +kernel

/-- A read of the renderer after the first write of a `DRW` sees that write and not the later ones (R73). -/
theorem test_renderer_in_draw :
    holds (step ({ start [(1, 2), (2, 3)] 0 0x200 0xD121 with turns := [.engine [] [⟨1, 2, 3⟩, ⟨0, 3, 3⟩]] } : State))
      (fun t => decide (t.seen = [⟨2, 3, true⟩, ⟨3, 3, false⟩] ∧ t.getPixel 3 3)) = true := by decide +kernel

/-- A key write before a later read than its key's is not seen by the scan, and stands in the keypad afterwards (R73). -/
theorem test_key_lands_late :
    holds (step ({ start [] 0 0x240 0xF30A with turns := [.engine [⟨0xF, 0x2, .pressed⟩] []] } : State))
      (fun t => decide (t.pc = 0x240 ∧ keyAt t.key 0x2 = .pressed)) = true := by decide +kernel

/-- The host raises its stop request as a turn of its own; the cycle after it halts, the key write inside it landing. -/
theorem test_raise_stop : holds (step ({ demo with turns := [.raiseStop] } : State)) (fun t => t.stopReq && decide (t.pc = 0x200)) =
    true := by decide +kernel
theorem test_stop_in_turn :
    holds (step ({ demo with stopReq := true, turns := [.engine [⟨0, 5, .pressed⟩] []] } : State))
      (fun t => halted .stopped 0x200 none t && decide (keyAt t.key 5 = .pressed)) = true := by decide +kernel

/-! ### Witnesses: for every obligation with hypotheses, states and operands that meet them -/

/-- A state of the invariant that is not the reset state: a call is live, a key is pressed, a pixel lit, RAM written. -/
def live : State :=
  { start [(0, 3)] 0x300 0x204 0x220C with
    sp := 1, stack := demo.stack.set 0 0x206, fb := [5], key := setKeyAt demo.key 3 .pressed, dt := 2,
    log := [⟨0x0000, 0x202⟩] }

theorem test_witness_inv : live.Inv :=
  ⟨by decide +kernel, by decide +kernel, by decide +kernel, by decide +kernel, by decide +kernel, by decide +kernel, by decide +kernel⟩

theorem test_witness_StepKeepsInvariant : live.Inv ∧ ∃ t, step live = .next t ∧ decide (t.sp = 2) = true :=
  ⟨test_witness_inv, exists_of_holds _ _ (by decide +kernel)⟩

theorem test_witness_EncodeOfDecode : decode 0x8AB6 = .valid (.shiftRight 0xA) ∧ decode 0x512F = .valid (.skipEqReg 1 2) := by
  decide +kernel

theorem test_witness_DecoderFollowsOpcodeMap :
    decode 0xFE65 = .valid (.loadRegs 0xE) ∧ (∀ r ∈ opcodeTable, (0x00EF : Word) &&& r.mask ≠ r.bits) ∧
    decode 0x812F = .invalidInstruction 0x812F := by decide +kernel

theorem test_witness_OpcodeRowsDisjoint :
    (Instr.shiftLeft 0).row ∈ opcodeTable ∧ (0x8ABE : Word) &&& (Instr.shiftLeft 0).row.mask = (Instr.shiftLeft 0).row.bits := by
  decide +kernel

theorem test_witness_SourceAttestedEncodings : ∀ r ∈ opcodeTable, (0x0000 : Word) &&& r.mask ≠ r.bits := by decide +kernel

theorem test_witness_StepRunsDecodedInstruction :
    ((start0 [] 0x6A42).engineMoves ∧ (start0 [] 0x6A42).canFetch ∧
      decode (start0 [] 0x6A42).fetch = .valid (.loadImm 0xA 0x42)) ∧
    (let s : State := { start [] 0 0xFFE 0xF30A with turns := [.engine [⟨2, 2, .pressed⟩] [⟨0, 1, 1⟩], .delayTick] }
     s.turns = .engine [⟨2, 2, .pressed⟩] [⟨0, 1, 1⟩] :: [.delayTick] ∧ s.canFetch ∧
       decode s.fetch = .valid (.waitKey 3)) :=
  ⟨⟨⟨by decide +kernel, by decide +kernel⟩, ⟨by decide +kernel, by decide +kernel, by decide +kernel⟩, by decide +kernel⟩,
   by decide +kernel, ⟨by decide +kernel, by decide +kernel, by decide +kernel⟩, by decide +kernel⟩

/-- The plain turn, and a turn in the list with other agents' turns behind it. -/
theorem test_witness_StopRequestHaltsFirst :
    (let s : State := { demo with stopReq := true, pc := 0x201 }
     s.engineMoves ∧ s.run = .running ∧ s.stopReq = true) ∧
    (let s : State := { demo with stopReq := true, pc := 0x201, turns := [.engine [⟨0, 5, .pressed⟩] [], .delayTick] }
     s.turns = .engine [⟨0, 5, .pressed⟩] [] :: [.delayTick] ∧ s.run = .running ∧ s.stopReq = true) :=
  ⟨⟨⟨rfl, rfl⟩, rfl, rfl⟩, rfl, rfl, rfl⟩

/-- Odd, just below the program area, and just above the greatest fetch address; in a plain turn and in one in the list. -/
theorem test_witness_IllegalPcHaltsAtFetch :
    (([0x201, 0x1FE, 0xFFF, 0x1000] : List Word).map fun pc => ({ demo with pc := pc } : State)).Forall fun s =>
      ((s.turns = [] ∧ s.scanWrites = []) ∧ ({ s with turns := [.engine [] []] } : State).turns = .engine [] [] :: []) ∧
        s.run = .running ∧ s.stopReq = false ∧
        (s.pc.toNat % 2 = 1 ∨ s.pc.toNat < 0x200 ∨ 0xFFE < s.pc.toNat) := by decide +kernel

theorem test_witness_DecodeMissFollowsPolicy :
    ∀ p ∈ [InvalidPolicy.skip, .fatal],
      let s : State := { demo with cfg := { demoConfig with invalidPolicy := p } }
      ((s.turns = [] ∧ s.scanWrites = []) ∧ ({ s with turns := [.engine [] []] } : State).turns = .engine [] [] :: []) ∧
        (s.run = .running ∧ s.stopReq = false ∧ s.pcLegal = true) ∧
        decode s.fetch = .invalidInstruction 0x0000 ∧ s.cfg.invalidPolicy = p := by decide +kernel

/-- A halted state in which another agent moves. -/
def haltedDemo (r : HaltReason) (ts : List Turn) : State := { demo.haltedWith r none with dt := 1, st := 1, turns := ts }

theorem test_witness_HaltedEngineHasNoStep :
    (haltedDemo .stopped []).run = .halted ∧ (haltedDemo .stopped []).turns = [] ∧
    (haltedDemo .stopped [.engine [] []]).turns = .engine [] [] :: [] := by decide +kernel

theorem test_witness_HaltedStateIsFrozen :
    ∀ ts ∈ ([[.delayTick], [.setKey 3 .pressed], [.getPixel 70 40], [.raiseStop]] : List (List Turn)),
      (haltedDemo .decodeMiss ts).run = .halted ∧ holds (step (haltedDemo .decodeMiss ts)) (fun _ => true) = true := by
  decide +kernel

/-- `RET` on an empty stack, in a plain turn and in one with a key write and a read inside. -/
theorem test_witness_HaltingCycleChangesRunAndDiagOnly :
    ((start0 [] 0x00EE).engineMoves ∧ (start0 [] 0x00EE).run = .running ∧
      ∃ t, step (start0 [] 0x00EE) = .next t ∧ decide (t.run = .halted) = true) ∧
    (let s : State := { start0 [] 0x00EE with turns := [.engine [⟨0, 5, .pressed⟩] [⟨0, 1, 1⟩]] }
     s.turns = .engine [⟨0, 5, .pressed⟩] [⟨0, 1, 1⟩] :: [] ∧ s.run = .running ∧
       ∃ t, step s = .next t ∧ decide (t.run = .halted) = true) :=
  ⟨⟨⟨by decide +kernel, by decide +kernel⟩, by decide +kernel, exists_of_holds _ _ (by decide +kernel)⟩,
   by decide +kernel, by decide +kernel, exists_of_holds _ _ (by decide +kernel)⟩

/-- The six instructions that halt, each at the first operand that does. -/
theorem test_witness_InstructionHaltsExactly :
    ∀ p ∈ ([(start0 [] 0x00EE, .returnFromSubroutine), ({ start0 [] 0x2300 with sp := 16 }, .call 0x300),
        (start [] 0xFFF 0x200 0xD122, .draw 1 2 2), (start [] 0xFFE 0x200 0xF033, .storeBcd 0),
        (start [] 0xFFF 0x200 0xF155, .storeRegs 1), (start [] 0xFF1 0x200 0xFF65, .loadRegs 0xF)] : List (State × Instr)),
      p.1.run = .running ∧ decode p.1.fetch = .valid p.2 ∧
        holds (exec p.2 p.1) (fun t => decide (t.run = .halted)) = true := by decide +kernel

/-- The same six at the last operand that does not halt. -/
theorem test_witness_InstructionHaltsExactly_not :
    ∀ p ∈ ([({ start0 [] 0x00EE with sp := 1 }, .returnFromSubroutine), ({ start0 [] 0x2300 with sp := 15 }, .call 0x300),
        (start [] 0xFFE 0x200 0xD122, .draw 1 2 2), (start [] 0xFFD 0x200 0xF033, .storeBcd 0),
        (start [] 0xFFE 0x200 0xF155, .storeRegs 1), (start [] 0xFF0 0x200 0xFF65, .loadRegs 0xF)] : List (State × Instr)),
      p.1.run = .running ∧ holds (exec p.2 p.1) (fun t => decide (t.run = .running)) = true := by decide +kernel

/-- One opcode for each arm of the statement, at the greatest fetch address. -/
theorem test_witness_PcAfterCycle :
    (([0x1FFF, 0xBFFF, 0x2300, 0x00EE, 0x3000, 0x4000, 0x5010, 0x9010, 0xE09E, 0xE0A1, 0xF00A, 0x0000, 0x6000, 0xF033]
      : List Word).map (start [] 0xFFE 0xFFE)).Forall fun s =>
      (s.turns = [] ∧ s.scanWrites = []) ∧ (s.run = .running ∧ s.stopReq = false ∧ s.pcLegal = true) ∧
        holds (step s) (fun _ => true) = true := by decide +kernel

theorem test_witness_OnlyNamedInstructionsWrite :
    (∃ t, exec (.jump 0x300) demo = .next t ∧ decide (t.pc = 0x300) = true) ∧ (¬ ∃ nnn, Instr.jump 0x300 = .call nnn) ∧
    Instr.jump 0x300 ≠ .returnFromSubroutine ∧ (¬ ∃ x, Instr.jump 0x300 = .storeBcd x ∨ Instr.jump 0x300 = .storeRegs x) ∧
    (¬ ∃ x, Instr.jump 0x300 = .setDelay x) ∧ (¬ ∃ x, Instr.jump 0x300 = .setSound x) ∧
    (¬ ∃ x y n, Instr.jump 0x300 = .draw x y n) ∧ Instr.jump 0x300 ≠ .clearDisplay ∧
    (¬ ∃ nnn, Instr.jump 0x300 = .loadIndex nnn) ∧ (¬ ∃ x, Instr.jump 0x300 = .addIndex x ∨ Instr.jump 0x300 = .loadFont x) :=
  ⟨exists_of_holds _ _ (by decide +kernel), by simp, by simp, by simp, by simp, by simp, by simp, by simp, by simp, by simp⟩

/-- A flag-writing instruction, `DRW` inside and outside RAM, an instruction that names a register, and one that names none. -/
theorem test_witness_FlagRegisterRule :
    ∀ p ∈ ([(demo, .addWithCarry 0xE 0xF), (demo, .subtract 0xE 0xF), (demo, .subtractReversed 0xE 0xF),
        (demo, .shiftRight 0xE), (demo, .shiftLeft 0xE), ({ demo with i := 0xFFF }, .draw 0 0 1),
        ({ demo with i := 0xFFF }, .draw 0 0 2), (demo, .loadRegs 0xE), (demo, .addIndex 0xF)] : List (State × Instr)),
      (0xE : Nibble) ≠ 0xF ∧ holds (exec p.2 p.1) (fun _ => true) = true := by decide +kernel

/-- A request that stands, raised again; and a turn that is not the host's. -/
theorem test_witness_ConfigFixedLogGrowsStopStays :
    (let s : State := { demo with stopReq := true, turns := [.raiseStop] }
     s.stopReq = true ∧ ∃ t, step s = .next t ∧ decide (t.stopReq = true) = true) ∧
    (let s : State := { demo with turns := [.setKey 3 .pressed] }
     (∀ rest, s.turns ≠ .raiseStop :: rest) ∧ ∃ t, step s = .next t ∧ decide (t.stopReq = false) = true) :=
  ⟨⟨rfl, exists_of_holds _ _ (by decide +kernel)⟩, by intros; simp, exists_of_holds _ _ (by decide +kernel)⟩

/-- No column; an image one byte too long; an image that just fits. -/
theorem test_witness_ResetConstructsTheTableState :
    ({ demoConfig with fbW := 0 } : Config).wf = false ∧
    (demoConfig.wf = true ∧ 3584 < (List.replicate 3585 (0 : Byte)).length) ∧
    (demoConfig.wf = true ∧ (List.replicate 3584 (0xAB : Byte)).length ≤ 3584) :=
  ⟨by decide +kernel, ⟨by decide +kernel, by rw [List.length_replicate]; decide⟩, by decide +kernel,
   by rw [List.length_replicate]⟩

theorem test_witness_TickStep :
    ∀ p ∈ ([([.delayTick], 0), ([.delayTick], 1), ([.soundTick], 0), ([.soundTick], 0xFF)] : List (List Turn × Byte)),
      let s : State := { demo with turns := p.1, dt := p.2, st := p.2 }
      s.timersStopped = false ∧ (s.turns = .delayTick :: [] ∨ s.turns = .soundTick :: []) := by decide +kernel

theorem test_witness_TimersStopWithStopped :
    ∀ t ∈ [Turn.delayTick, .soundTick],
      let s := haltedDemo .stopped [t]
      s.run = .halted ∧ s.diag.reason = .stopped ∧ (s.turns = .delayTick :: [] ∨ s.turns = .soundTick :: []) := by decide +kernel

/-- The source's delay timer example: ten, and twelve ticks. -/
theorem test_witness_TicksCountDownToZero :
    ∀ t ∈ [Turn.delayTick, .soundTick],
      let s : State := { demo with dt := 10, st := 10, turns := List.replicate 12 t }
      s.timersStopped = false ∧ s.turns = List.replicate 12 t := by decide +kernel

theorem test_witness_TimersRiseOnlyByWrite :
    (∃ t, step (start0 [(2, 0x3C)] 0xF215) = .next t ∧ decide ((start0 [(2, 0x3C)] 0xF215).dt.toNat < t.dt.toNat) = true) ∧
    (∃ t, step (start0 [(2, 0x05)] 0xF218) = .next t ∧ decide ((start0 [(2, 0x05)] 0xF218).st.toNat < t.st.toNat) = true) :=
  ⟨exists_of_holds _ _ (by decide +kernel), exists_of_holds _ _ (by decide +kernel)⟩

theorem test_witness_KeysChangeOnlyByInputSource :
    ({ demo with turns := [.setKey 0xF .pressed] } : State).turns = .setKey 0xF .pressed :: [] ∧
    (demo.scanWrites = [] ∧ (∀ k ks rest, demo.turns ≠ .setKey k ks :: rest) ∧
      (∀ w ws reads rest, demo.turns ≠ .engine (w :: ws) reads :: rest) ∧
      ∃ t, step demo = .next t ∧ decide (t.pc = 0x202) = true) :=
  ⟨rfl, rfl, by intros; simp [demo, State.resetWith], by intros; simp [demo, State.resetWith],
   exists_of_holds _ _ (by decide +kernel)⟩

theorem test_witness_RendererReadsAndChangesNothing :
    let s : State := { demo with turns := [.getPixel 64 32] }
    s.cfg.wf = true ∧ s.turns = .getPixel 64 32 :: [] := by decide +kernel

/-- A tick, and the host's turn. -/
theorem test_witness_OtherAgentsDoNotRedirect :
    (let s : State := { demo with turns := [.soundTick] }
     s.turns ≠ [] ∧ (∀ scan reads rest, s.turns ≠ .engine scan reads :: rest) ∧ (∀ rest, s.turns ≠ .raiseStop :: rest) ∧
       ∃ t, step s = .next t ∧ decide (t.pc = 0x200) = true) ∧
    ({ demo with turns := [.raiseStop, .soundTick] } : State).turns = .raiseStop :: [.soundTick] :=
  ⟨⟨by decide +kernel, by intros; simp, by intros; simp, exists_of_holds _ _ (by decide +kernel)⟩, rfl⟩

/-- `CLS`, a `DRW` that halts at the first row it may not read, one at the last row it may, and an instruction without pixels. -/
theorem test_witness_PixelWritesMakeTheFramebuffer :
    live.Inv ∧ (∃ t, exec .clearDisplay live = .next t ∧ decide (t.fb = []) = true) ∧
      (∃ t, exec (.draw 0 0 2) { live with i := 0xFFF } = .next t ∧ decide (t.fb = [5]) = true) ∧
      live.cfg.wf = true ∧ ({ live with i := 0xFFF } : State).i.toNat + (1 : Nibble).toNat - 1 < 4096 ∧
      (Instr.draw 0 0 2 ≠ .clearDisplay ∧ 0 < (2 : Nibble).toNat ∧
        4096 ≤ ({ live with i := 0xFFF } : State).i.toNat + (2 : Nibble).toNat - 1) ∧
      (Instr.jump 0x300 ≠ .clearDisplay ∧ ∀ x y n, Instr.jump 0x300 ≠ .draw x y n) :=
  ⟨test_witness_inv, exists_of_holds _ _ (by decide +kernel), exists_of_holds _ _ (by decide +kernel), by decide +kernel,
   by decide +kernel, by decide +kernel, by simp, by simp⟩

theorem test_witness_ReturnPopsAndJumps :
    0 < ({ demo with sp := 1 } : State).sp.val ∧ 0 < ({ demo with sp := 16 } : State).sp.val ∧ demo.sp.val = 0 := by decide +kernel

/-- A target that is odd and one just below the program area. -/
theorem test_witness_JumpSetsPc :
    demo.engineMoves ∧ demo.run = .running ∧ demo.stopReq = false ∧ (0xFFF : Addr).toNat % 2 = 1 ∧ (0x1FE : Addr).toNat < 0x200 :=
  ⟨⟨rfl, rfl⟩, rfl, rfl, by decide +kernel, by decide +kernel⟩

theorem test_witness_CallPushesAndJumps :
    ({ demo with sp := 15 } : State).sp.val < 16 ∧ ({ demo with sp := 16 } : State).sp.val = 16 := by decide +kernel

theorem test_witness_CallThenReturnResumes : ({ demo with sp := 15 } : State).sp.val < 16 := by decide +kernel

/-- The least and the greatest address a jump can settle at. -/
theorem test_witness_SettledStateStays :
    (let s := start [] 0 0x200 0x1200
     s.settledAt 0x200 ∧ s.pcLegal = true ∧ s.engineMoves ∧ s.stopReq = false) ∧
    (let s := start [] 0 0xFFE 0x1FFE
     s.settledAt 0xFFE ∧ s.pcLegal = true ∧ s.engineMoves ∧ s.stopReq = false) :=
  ⟨⟨⟨by decide +kernel, by decide +kernel, by decide +kernel⟩, by decide +kernel, ⟨by decide +kernel, by decide +kernel⟩,
    by decide +kernel⟩,
   ⟨by decide +kernel, by decide +kernel, by decide +kernel⟩, by decide +kernel, ⟨by decide +kernel, by decide +kernel⟩,
   by decide +kernel⟩

/-- A destination that is not VF, for AddWithCarryResult, SubtractResults and ShiftResults; the masks 0x00 and 0xFF, for
RandomIsMaskedDraw. -/
theorem test_witness_register_hypotheses :
    (0xE : Nibble) ≠ 0xF ∧ (0x0 : Nibble) ≠ 0xF ∧ (0x00 : Byte) = 0x00 ∧ (0xFF : Byte) = 0xFF := by decide +kernel

/-- The last row of RAM, no row from the greatest I, and one row too many. -/
theorem test_witness_DrawXorsSprite :
    demo.cfg.wf = true ∧
    (let s : State := { demo with i := 0xFFF }; s.i.toNat + (1 : Nibble).toNat - 1 < 4096) ∧ (0 : Nibble).toNat = 0 ∧
    (let s : State := { demo with i := 0xFFF }; 0 < (2 : Nibble).toNat ∧ 4096 ≤ s.i.toNat + (2 : Nibble).toNat - 1) := by
  decide +kernel

theorem test_witness_DrawTwiceRestores :
    demo.cfg.wf = true ∧ (1 : Nibble) ≠ 0xF ∧ (2 : Nibble) ≠ 0xF ∧ demo.i.toNat + (0xF : Nibble).toNat - 1 < 4096 ∧
    8 ≤ demo.cfg.fbW ∧ 15 ≤ demo.cfg.fbH ∧ spriteHits demo 1 2 0xF ≠ [] ∧
    (∀ p ∈ spriteHits demo 1 2 0xF, demo.getPixel p.1 p.2 = false) := by decide +kernel

/-- The low nibble of 0x1A is 0xA, that of 0xFF is 0xF. -/
theorem test_witness_SkipsOnKey :
    (0xA : Nibble).toNat = ((start0 [(5, 0x1A)] 0).getV 5).toNat % 16 ∧
    (0xF : Nibble).toNat = ((start0 [(5, 0xFF)] 0).getV 5).toNat % 16 := by decide +kernel

/-- No key; a key pressed throughout; a key pressed just before its own read, a key pressed only after it, and a key pressed before
an earlier read and released again just before its own. -/
theorem test_witness_WaitKeyStoresPressedKey :
    (∀ k : Nibble, keyAfter demo.scanWrites demo.key k.toNat k = .released) ∧
    (∃ k : Nibble, keyAfter live.scanWrites live.key k.toNat k = .pressed) ∧ live.scanWrites = [] ∧
    (let s : State := { demo with scanWrites := [⟨0xF, 0xF, .pressed⟩] }
     ∃ k : Nibble, keyAfter s.scanWrites s.key k.toNat k = .pressed) ∧
    (let s : State := { demo with scanWrites := [⟨0x1, 0x0, .pressed⟩] }
     ∀ k : Nibble, keyAfter s.scanWrites s.key k.toNat k = .released) ∧
    (let s : State := { demo with scanWrites := [⟨0x3, 0x3, .released⟩, ⟨0x2, 0x3, .pressed⟩] }
     ∀ k : Nibble, keyAfter s.scanWrites s.key k.toNat k = .released) := by decide +kernel

theorem test_witness_IndexWrites : demo.cfg.wf = true := by decide +kernel

/-- The greatest I that three bytes fit at, and the least that they do not. -/
theorem test_witness_StoreBcdDigits :
    Memory.wf (resetByte live.cfg) live.ram ∧ ({ live with i := 0xFFD } : State).i.toNat + 2 < 4096 ∧
    4096 ≤ ({ live with i := 0xFFE } : State).i.toNat + 2 := by decide +kernel

/-- Sixteen registers at the last place that holds them, and one further. -/
theorem test_witness_StoreRegsCopies :
    Memory.wf (resetByte live.cfg) live.ram ∧ ({ live with i := 0xFF0 } : State).i.toNat + (0xF : Nibble).toNat < 4096 ∧
    4096 ≤ ({ live with i := 0xFF1 } : State).i.toNat + (0xF : Nibble).toNat := by decide +kernel

theorem test_witness_LoadRegsCopies :
    ({ live with i := 0xFFF } : State).i.toNat + (0x0 : Nibble).toNat < 4096 ∧
    4096 ≤ ({ live with i := 0xFFF } : State).i.toNat + (0x1 : Nibble).toNat := by decide +kernel

/-- The state after the store itself is one the second half applies to. -/
theorem test_witness_StoreThenLoadRestoresRegs :
    Memory.wf (resetByte live.cfg) live.ram ∧ live.i.toNat + (0x3 : Nibble).toNat < 4096 ∧
    ∃ t, exec (.storeRegs 0x3) live = .next t ∧ t.i = t.i ∧ ∀ a, t.readByte a = t.readByte a :=
  ⟨by decide +kernel, by decide +kernel, _, rfl, rfl, fun _ => rfl⟩

theorem test_witness_StoreSeenByNextFetch :
    let s : State := { live with i := 0x206 }
    Memory.wf (resetByte s.cfg) s.ram ∧ 1 ≤ (0x1 : Nibble).toNat ∧ s.pc.toNat + 2 < 65536 ∧ s.i.toNat = s.pc.toNat + 2 ∧
      s.i.toNat + (0x1 : Nibble).toNat < 4096 := by decide +kernel

end Sys2Proof.Tests
end

/-! What an instruction that answers can do to the state, said once by the kind of its write (40_engine_cycle.md R126), what
follows for each component and for the invariant, and from these the obligations of 10_state.md. -/

namespace Sys2Proof

/-- The instructions that set the pc otherwise than by one instruction width (10_state.md R25). -/
def Instr.setsPc : Instr → Bool
  | .returnFromSubroutine | .jump _ | .call _ | .jumpOffset _ | .skipEqImm _ _ | .skipNeqImm _ _ | .skipEqReg _ _ |
    .skipNeqReg _ _ | .skipKeyPressed _ | .skipKeyNotPressed _ | .waitKey _ => true
  | _ => false

/-- The instructions that write a flag to VF (10_state.md R22). -/
def Instr.writesFlag : Instr → Bool
  | .addWithCarry _ _ | .subtract _ _ | .subtractReversed _ _ | .shiftRight _ | .shiftLeft _ | .draw _ _ _ => true
  | _ => false

/-- The register an instruction without a flag names as its destination; of a bulk load the last one. -/
def Instr.destination : Instr → Option Nibble
  | .loadImm x _ | .addImm x _ | .move x _ | .or x _ | .and x _ | .xor x _ | .random x _ | .readDelay x | .waitKey x |
    .loadRegs x => some x
  | _ => none

end Sys2Proof

namespace Sys2Proof.Machine

/-- What an instruction that answers leaves of `s`: it halts, or it writes the one component its kind may write and
moves the pc. `exec_effect` says that every instruction does one of these. -/
inductive Effect (s : State) : Instr → State → Prop where
  | halt (i : Instr) (r : HaltReason) : Effect s i (s.haltedWith r (some i.encode))
  | ret (h : 0 < s.sp.val) :
      Effect s .returnFromSubroutine { s with sp := ⟨s.sp.val - 1, by omega⟩, pc := s.stack[s.sp.val - 1] }
  | call (nnn : Addr) (h : s.sp.val < 16) :
      Effect s (.call nnn)
        { s with stack := s.stack.set s.sp.val (s.pc + 2), sp := ⟨s.sp.val + 1, by omega⟩, pc := zextAddr nnn }
  | jump (i : Instr) (w : Word) (hi : i.setsPc = true) (hw : w.toNat ≤ 0x10FE) : Effect s i (s.jumpTo w)
  | skip (i : Instr) (b : Bool) (hi : i.setsPc = true) : Effect s i (s.skipIf b)
  | poll (x : Nibble) : Effect s (.waitKey x) s
  | load (i : Instr) (x : Nibble) (b : Byte) (d : Nat) (hi : i.destination = some x) :
      Effect s i ({ s with draws := d }.setV x b).advance
  | flag (i : Instr) (f : Bool) (x : Nibble) (b : Byte) (hi : i.writesFlag = true) :
      Effect s i (s.setFlagThenV f x b).advance
  | index (i : Instr) (w : Word) (hi : (∃ nnn, i = .loadIndex nnn) ∨ ∃ x, i = .addIndex x ∨ i = .loadFont x) :
      Effect s i (s.setI w).advance
  | delay (x : Nibble) : Effect s (.setDelay x) ({ s with dt := s.getV x } : State).advance
  | sound (x : Nibble) : Effect s (.setSound x) ({ s with st := s.getV x } : State).advance
  | clear : Effect s .clearDisplay ({ s with fb := [] } : State).advance
  | draw (x y n : Nibble) (ws : List PixelWrite) (f : Bool) :
      Effect s (.draw x y n) ({ s with fb := s.fb.setAll s.cfg ws }.setFlag f).advance
  | store (i : Instr) (bs : List Byte) (hi : ∃ x, i = .storeBcd x ∨ i = .storeRegs x)
      (h : s.operandInRam bs.length = true) : Effect s i (s.writeBytes s.i.toNat bs).advance
  | fill (x : Nibble) : Effect s (.loadRegs x) ({ s with v := loadRegsFrom s (x.toNat + 1) } : State).advance

/-- The target of `JP V0, nnn` is the sum of two numbers that do not reach 16 bits (41_control_flow.md R148). -/
theorem jumpOffset_toNat (nnn : Addr) (s : State) :
    (zextAddr nnn + s.getV16 0).toNat = nnn.toNat + (s.getV 0).toNat := by
  have h1 := nnn.isLt
  have h2 := (s.getV 0).isLt
  simp only [zextAddr, State.getV16, BitVec.toNat_add, BitVec.truncate_eq_setWidth, BitVec.toNat_setWidth]
  omega

/-- The address operand keeps its number (30_encoding.md R93). -/
theorem zextAddr_toNat (nnn : Addr) : (zextAddr nnn).toNat = nnn.toNat := by
  have h := nnn.isLt
  simp only [zextAddr, BitVec.truncate_eq_setWidth, BitVec.toNat_setWidth]
  omega

/-- Every instruction that answers has the effect of its kind. -/
theorem exec_effect (i : Instr) (s t : State) (h : exec i s = .next t) : Effect s i t := by
  cases i
  case returnFromSubroutine =>
    rcases s.pop_cases with ⟨hp, e⟩ | ⟨-, e⟩ <;> simp only [exec, execReturn, e] at h <;> cases h
    · exact .ret hp
    · exact .halt _ _
  case call nnn =>
    rcases s.push_cases (s.pc + 2) with ⟨hp, e⟩ | ⟨-, e⟩ <;> simp only [exec, execCall, e] at h <;> cases h
    · exact .call nnn hp
    · exact .halt _ _
  case jump nnn =>
    cases h
    exact .jump _ _ rfl (by have := nnn.isLt; rw [zextAddr_toNat]; omega)
  case jumpOffset nnn =>
    cases h
    exact .jump _ _ rfl (by have := nnn.isLt; have := (s.getV 0).isLt; rw [jumpOffset_toNat]; omega)
  case waitKey x =>
    simp only [exec, execWaitKey] at h
    split at h <;> cases h
    · exact .poll x
    · exact .load _ _ _ _ rfl
    · exact .load _ _ _ _ rfl
  case draw x y n =>
    simp only [exec, execDraw] at h
    split_ifs at h <;> cases h
    · exact .draw x y n _ _
    · exact .halt _ _
  case storeBcd x =>
    simp only [exec, execStoreBcd] at h
    split_ifs at h with hr <;> cases h
    · exact .store _ _ ⟨x, .inl rfl⟩ hr
    · exact .halt _ _
  case storeRegs x =>
    simp only [exec, execStoreRegs] at h
    split_ifs at h with hr <;> cases h
    · exact .store _ _ ⟨x, .inr rfl⟩ (by rwa [State.length_regsUpTo])
    · exact .halt _ _
  case loadRegs x =>
    simp only [exec, execLoadRegs] at h
    split_ifs at h <;> cases h
    · exact .fill x
    · exact .halt _ _
  case clearDisplay => cases h; exact .clear
  case setDelay x => cases h; exact .delay x
  case setSound x => cases h; exact .sound x
  case loadIndex nnn => cases h; exact .index _ _ (.inl ⟨nnn, rfl⟩)
  case addIndex x => cases h; exact .index _ _ (.inr ⟨x, .inl rfl⟩)
  case loadFont x => cases h; exact .index _ _ (.inr ⟨x, .inr rfl⟩)
  case skipEqImm | skipNeqImm | skipEqReg | skipNeqReg | skipKeyPressed | skipKeyNotPressed =>
    cases h; exact .skip _ _ rfl
  case addWithCarry | subtract | subtractReversed | shiftRight | shiftLeft => cases h; exact .flag _ _ _ _ rfl
  case loadImm | addImm | move | or | and | xor | random | readDelay => cases h; exact .load _ _ _ _ rfl

/-! ### What follows for each component -/

section

variable {i : Instr} {s t : State}

/-- The stack changes only by `CALL` and `RET` (10_state.md R26). -/
theorem Effect.stack (h : Effect s i t) (hc : ¬ ∃ nnn, i = .call nnn) (hr : i ≠ .returnFromSubroutine) :
    t.sp = s.sp ∧ t.stack = s.stack := by
  cases h with
  | ret => exact absurd rfl hr
  | call nnn _ => exact absurd ⟨nnn, rfl⟩ hc
  | _ => exact ⟨rfl, rfl⟩

/-- RAM changes only by a store, whose bytes lie inside it (10_state.md R27). -/
theorem Effect.ram (h : Effect s i t) :
    t.ram = s.ram ∨ (∃ x, i = .storeBcd x ∨ i = .storeRegs x) ∧
      ∃ bs, s.operandInRam bs.length = true ∧ t.ram = s.ram.writeBytes (resetByte s.cfg) s.i.toNat bs := by
  cases h with
  | store _ bs hi hr => exact .inr ⟨hi, bs, hr, rfl⟩
  | _ => exact .inl rfl

/-- The framebuffer changes only by `CLS` and by the pixel writes of `DRW` (10_state.md R30). -/
theorem Effect.fb (h : Effect s i t) :
    t.fb = s.fb ∨ (i = .clearDisplay ∧ t.fb = []) ∨
      (∃ x y n, i = .draw x y n) ∧ ∃ ws, t.fb = s.fb.setAll s.cfg ws := by
  cases h with
  | clear => exact .inr (.inl ⟨rfl, rfl⟩)
  | draw x y n ws f => exact .inr (.inr ⟨⟨x, y, n, rfl⟩, ws, rfl⟩)
  | _ => exact .inl rfl

/-- I changes only by `LD I`, `ADD I` and `LD F` (10_state.md R23). -/
theorem Effect.i_eq (h : Effect s i t) (hl : ¬ ∃ nnn, i = .loadIndex nnn)
    (ha : ¬ ∃ x, i = .addIndex x ∨ i = .loadFont x) : t.i = s.i := by
  cases h with
  | index _ _ hi => exact absurd hi (not_or.2 ⟨hl, ha⟩)
  | _ => rfl

/-- A bulk load leaves the registers above its last one (44_timers_index_memory.md R219). -/
theorem getV_loadRegsFrom_of_ne (s : State) (x : Nibble) (hx : x ≠ 0xF) :
    ({ s with v := loadRegsFrom s (x.toNat + 1) } : State).getV 0xF = s.getV 0xF := by
  have hlt : x.toNat < 15 := by
    have hne : x.toNat ≠ 15 := fun e => hx (BitVec.eq_of_toNat_eq e)
    have := x.isLt
    omega
  exact (getElem_loadRegsFrom s (x.toNat + 1) (by omega) 15 (by omega)).trans (if_neg (by omega))

/-- An instruction that neither writes a flag nor names VF as its destination leaves VF alone (10_state.md R22). -/
theorem Effect.flag_kept (h : Effect s i t) (hf : i.writesFlag = false) (hd : i.destination ≠ some 0xF) :
    t.getV 0xF = s.getV 0xF := by
  cases h with
  | load _ x b d hi =>
    have hx : (0xF : Nibble) ≠ x := by rintro rfl; exact hd hi
    exact (State.getV_setV _ x 0xF b).trans (if_neg hx)
  | flag _ _ _ _ hi => exact absurd hi (by simp [hf])
  | draw => cases hf
  | fill x => exact getV_loadRegsFrom_of_ne s x fun e => hd (congrArg some e)
  | _ => rfl

/-- An instruction that does not set the pc advances it by one width, unless it halts (10_state.md R25). -/
theorem Effect.pc_of_not_setsPc (h : Effect s i t) (hi : i.setsPc = false) :
    (t.run = .halted ∧ t.pc = s.pc) ∨ (t.run = s.run ∧ t.pc = s.pc + 2) := by
  cases h with
  | halt => exact .inl ⟨rfl, rfl⟩
  | ret | call | poll => cases hi
  | jump _ _ hs | skip _ _ hs => exact absurd hs (by simp [hi])
  | _ => exact .inr ⟨rfl, rfl⟩

/-- At a legal pc a small advance does not wrap (40_engine_cycle.md R126). -/
theorem pc_add_toNat (hl : s.pcLegal = true) (k : Word) (hk : k.toNat ≤ 4) : (s.pc + k).toNat = s.pc.toNat + k.toNat := by
  obtain ⟨-, -, hle⟩ := (State.pcLegal_iff s).1 hl
  rw [BitVec.toNat_add]
  omega

/-- At a legal pc the advance by one width does not wrap (40_engine_cycle.md R126 (d)). -/
theorem pc_add_two_toNat (hl : s.pcLegal = true) : (s.pc + 2).toNat = s.pc.toNat + 2 :=
  pc_add_toNat hl 2 (by decide)

/-- At a legal pc a skip adds two instruction widths or one (40_engine_cycle.md R126 (b)). -/
theorem skipIf_pc_toNat (hl : s.pcLegal = true) (p : Prop) [Decidable p] :
    (s.skipIf (decide p)).pc.toNat = s.pc.toNat + if p then 4 else 2 := by
  by_cases hp : p <;> simp only [State.skipIf_writes, hp, decide_true, decide_false, if_true, if_false]
  · exact pc_add_toNat hl 4 (by decide)
  · exact pc_add_two_toNat hl

/-! ### The invariant of reachable states (10_state.md R39) -/

/-- What `liveEntry` says of a stack slot. -/
theorem liveEntry_iff (w : Word) : liveEntry w = true ↔ w.toNat % 2 = 0 ∧ 0x202 ≤ w.toNat ∧ w.toNat ≤ 0x1000 := by
  simp [liveEntry]

/-- The invariant speaks of no component but these. -/
theorem State.Inv.congr (hs : s.Inv) (hcfg : t.cfg = s.cfg) (hram : t.ram = s.ram) (hfb : t.fb = s.fb) (hpc : t.pc = s.pc)
    (hstack : t.stack = s.stack) (hsp : t.sp = s.sp) (hrun : t.run = s.run) (hdiag : t.diag = s.diag)
    (hlog : t.log = s.log) : t.Inv where
  cfg_wf := hcfg ▸ hs.cfg_wf
  ram_wf := by rw [hcfg, hram]; exact hs.ram_wf
  fb_wf := by rw [hcfg, hfb]; exact hs.fb_wf
  pc_bound := hpc ▸ hs.pc_bound
  live := by rw [hstack, hsp]; exact hs.live
  diag_matches := by rw [hrun, hdiag]; exact hs.diag_matches
  log_misses := hlog ▸ hs.log_misses

/-- A halt for a reason keeps the invariant (60_exceptions.md R240). -/
theorem State.Inv.haltedWith (hs : s.Inv) (r : HaltReason) (hr : r ≠ .none) (op : Option Word) :
    (s.haltedWith r op).Inv where
  cfg_wf := hs.cfg_wf
  ram_wf := hs.ram_wf
  fb_wf := hs.fb_wf
  pc_bound := hs.pc_bound
  live := hs.live
  diag_matches := by cases op <;> simp [State.haltedWith, diagMatchesRun, hr]
  log_misses := hs.log_misses

/-- At a legal pc no instruction takes the pc beyond the bound of R39: the greatest target is that of `JP V0`. -/
theorem Effect.pc_bound (h : Effect s i t) (hs : s.Inv) (hl : s.pcLegal = true) : t.pc.toNat ≤ 0x10FE := by
  obtain ⟨-, -, hle⟩ := (State.pcLegal_iff s).1 hl
  have hadv : (s.pc + 2).toNat ≤ 0x10FE := by rw [pc_add_two_toNat hl]; omega
  cases h with
  | halt | poll => exact hs.pc_bound
  | ret hp =>
    have hsp := s.sp.isLt
    have hlive := (liveEntry_iff _).1 (hs.live ⟨s.sp.val - 1, by omega⟩ (Nat.sub_lt hp Nat.one_pos))
    exact hlive.2.2.trans (by decide)
  | call nnn _ =>
    have := nnn.isLt
    rw [zextAddr_toNat]; omega
  | jump _ _ _ hw => exact hw
  | skip _ b _ => rw [← Bool.decide_coe b, skipIf_pc_toNat hl]; split_ifs <;> omega
  | _ => exact hadv

/-- The live stack entries stay return addresses: `CALL` pushes the address after a legal pc (10_state.md R39). -/
theorem Effect.live (h : Effect s i t) (hs : s.Inv) (hl : s.pcLegal = true) :
    ∀ k : Fin 16, k.val < t.sp.val → liveEntry t.stack[k] = true := by
  cases h with
  | ret _ => exact fun k hk => hs.live k (Nat.lt_of_lt_of_le hk (Nat.sub_le _ _))
  | call nnn hsp =>
    intro k hk
    by_cases hks : s.sp.val = k.val
    · obtain ⟨heven, hge, hle⟩ := (State.pcLegal_iff s).1 hl
      simp only [Fin.getElem_fin, Vector.getElem_set, hks, if_true, liveEntry_iff, pc_add_two_toNat hl]
      omega
    · have hlt : k.val < s.sp.val := by simp only at hk; omega
      simpa [Vector.getElem_set, hks] using hs.live k hlt
  | _ => exact hs.live

/-- RAM stays in its canonical form: a store writes inside RAM only (20_memory.md R66). -/
theorem Effect.ram_wf (h : Effect s i t) (hs : s.Inv) : Memory.wf (resetByte s.cfg) t.ram := by
  rcases h.ram with e | ⟨-, bs, hin, e⟩ <;> rw [e]
  · exact hs.ram_wf
  · refine Memory.writeBytes_wf _ bs _ _ hs.ram_wf ?_
    exact ((State.operandInRam_iff s _).1 hin).imp_left List.eq_nil_of_length_eq_zero

/-- The framebuffer stays in its canonical form (00_scope.md R12). -/
theorem Effect.fb_wf (h : Effect s i t) (hs : s.Inv) : Framebuffer.wf s.cfg t.fb := by
  rcases h.fb with e | ⟨-, e⟩ | ⟨-, ws, e⟩ <;> rw [e]
  · exact hs.fb_wf
  · exact Framebuffer.wf_nil _
  · exact Framebuffer.setAll_wf _ hs.cfg_wf ws _ hs.fb_wf

/-- An instruction at a legal pc keeps the invariant. -/
theorem exec_inv (hs : s.Inv) (hl : s.pcLegal = true) (h : exec i s = .next t) : t.Inv := by
  have e := exec_effect i s t h
  obtain ⟨hcfg, -, hlog, -⟩ := exec_keeps s t i h
  rcases exec_halts_or_keeps s t i h with ⟨hrun, hdiag⟩ | ⟨r, hr, rfl⟩
  · exact {
      cfg_wf := hcfg ▸ hs.cfg_wf
      ram_wf := hcfg ▸ e.ram_wf hs
      fb_wf := hcfg ▸ e.fb_wf hs
      pc_bound := e.pc_bound hs hl
      live := e.live hs hl
      diag_matches := by rw [hrun, hdiag]; exact hs.diag_matches
      log_misses := hlog ▸ hs.log_misses }
  · exact hs.haltedWith r (by rcases hr with rfl | rfl | rfl <;> decide) _

/-- The sentinel of the decoder carries the opcode it was given (30_encoding.md R94). -/
theorem decode_invalid_eq (op o : Word) (h : decode op = .invalidInstruction o) : o = op := by
  unfold decode decodeFamily0 decodeFamily8 decodeFamilyE decodeFamilyF at h
  repeat' split at h
  all_goals cases h <;> rfl

/-- A decode miss at a legal pc keeps the invariant: the entry it logs is an invalid opcode at that pc (R34, R235). -/
theorem decodeMiss_inv (hs : s.Inv) (hl : s.pcLegal = true) (op : Word) (hop : decode op = .invalidInstruction op) :
    (s.decodeMiss op).Inv := by
  have hpc := (State.pcLegal_iff s).1 hl
  rcases s.decodeMiss_cases op with ⟨-, e⟩ | ⟨-, e⟩ <;> rw [e]
  · exact hs.haltedWith _ (by decide) _
  · refine { hs with pc_bound := ?_, log_misses := fun m hm => ?_ }
    · rw [pc_add_two_toNat hl]; omega
    · rcases List.mem_append.1 hm with hm | hm
      · exact hs.log_misses m hm
      · rw [List.mem_singleton.1 hm]
        simp [loggedMiss, hop, hpc]

/-- A cycle of the engine keeps the invariant. -/
theorem engineCycle_inv (hs : s.Inv) (h : engineCycle s = .next t) : t.Inv := by
  unfold engineCycle at h
  rcases s.cycle_cases with ⟨-, e⟩ | ⟨-, -, e⟩ | ⟨-, -, -, e⟩ | ⟨i, hf, -, e⟩ | ⟨op, hf, hd, e⟩ <;>
    simp only [e] at h
  · cases h
  · cases h; exact hs.haltedWith _ (by decide) _
  · cases h; exact hs.haltedWith _ (by decide) _
  · exact exec_inv hs hf.2.2 h
  · cases h
    have hop := decode_invalid_eq _ _ hd
    exact decodeMiss_inv hs hf.2.2 op (hop ▸ hd)

/-! ### A step, by who moves -/

/-- A step is an engine's turn, or another agent's, which may change the timers, the keypad, the stop request (the host only,
and only to raise it), the turns and the renderer's record, and nothing else (60_exceptions.md R268). -/
theorem step_engine_or_agent (h : step s = .next t) :
    (∃ scan reads rest, engineTurn (s.onTurn scan rest) reads = .next t) ∨
    (∃ dt st key stop turns seen,
      t = { s with dt := dt, st := st, key := key, stopReq := stop, turns := turns, seen := seen } ∧
      (s.stopReq = true → stop = true) ∧ ((∀ rest, s.turns ≠ .raiseStop :: rest) → stop = s.stopReq)) := by
  rcases step_cases s with ⟨-, e⟩ | ⟨scan, reads, rest, -, e⟩ | ⟨rest, -, e⟩ | ⟨rest, -, e⟩ | ⟨k, ks, rest, -, e⟩ |
    ⟨x, y, rest, -, e⟩ | ⟨rest, ht, e⟩ <;> rw [e] at h
  · exact .inl ⟨s.scanWrites, [], s.turns, h⟩
  · exact .inl ⟨scan, reads, rest, h⟩
  · rw [State.tickDelay_eq] at h; cases h
    exact .inr ⟨_, _, _, _, _, _, rfl, id, fun _ => rfl⟩
  · rw [State.tickSound_eq] at h; cases h
    exact .inr ⟨_, _, _, _, _, _, rfl, id, fun _ => rfl⟩
  · cases h; exact .inr ⟨_, _, _, _, _, _, rfl, id, fun _ => rfl⟩
  · cases h; exact .inr ⟨_, _, _, _, _, _, rfl, id, fun _ => rfl⟩
  · cases h; exact .inr ⟨_, _, _, _, _, _, rfl, fun _ => rfl, fun hn => absurd ht (hn rest)⟩

/-- An engine's turn keeps the invariant: what lands after the cycle is no part of it. -/
theorem engineTurn_inv (hs : s.Inv) (reads : List MidRead) (h : engineTurn s reads = .next t) : t.Inv := by
  obtain ⟨u, hu, rfl⟩ := engineTurn_next s t reads h
  exact (engineCycle_inv hs hu).congr rfl rfl rfl rfl rfl rfl rfl rfl rfl

/-- The engine has no turn once halted (40_engine_cycle.md R129). -/
theorem engineTurn_of_halted (hh : s.run = .halted) (reads : List MidRead) : engineTurn s reads = .fault .engineHalted := by
  simp [engineTurn, engineCycle, State.cycle, hh, onNext]

/-! ### VF and the pc, instruction by instruction -/

/-- The flag a flag-writing register instruction leaves in VF when that is not its destination (42_alu.md R172). -/
theorem flag_of_setFlagThenV (s : State) (f : Bool) (x : Nibble) (b : Byte) (hx : x ≠ 0xF) :
    (s.setFlagThenV f x b).advance.getV 0xF = 0 ∨ (s.setFlagThenV f x b).advance.getV 0xF = 1 := by
  have hflag : (s.setFlagThenV f x b).advance.getV 0xF = if f then 1 else 0 :=
    (State.getV_setFlagThenV s f x 0xF b).trans ((if_neg hx.symm).trans (if_pos rfl))
  rw [hflag]
  cases f
  · exact .inl rfl
  · exact .inr rfl

/-- The flag of `DRW`: written when its sprite lies in RAM, else left alone (43_display_keys.md R192). -/
theorem execDraw_flag (x y n : Nibble) (h : execDraw x y n s = .next t) :
    if s.operandInRam n.toNat then t.getV 0xF = 0 ∨ t.getV 0xF = 1 else t.getV 0xF = s.getV 0xF := by
  unfold execDraw at h
  split_ifs at h ⊢ <;> cases h
  · cases collided (s.drawWrites x y n) <;> simp
  · rfl

/-- `CALL` jumps unless the stack is full, when it halts in place (41_control_flow.md R143). -/
theorem execCall_pc (nnn : Addr) (h : execCall nnn s = .next t) :
    if s.sp.val = 16 then t.pc = s.pc else t.pc.toNat = nnn.toNat := by
  rcases s.push_cases (s.pc + 2) with ⟨hsp, e⟩ | ⟨hsp, e⟩ <;> simp only [execCall, e] at h <;> cases h
  · rw [if_neg hsp.ne]; exact zextAddr_toNat nnn
  · rw [if_pos hsp]; rfl

/-- `RET` jumps to the top entry unless the stack is empty, when it halts in place (41_control_flow.md R141). -/
theorem execReturn_pc (h : execReturn s = .next t) :
    if _ : s.sp.val = 0 then t.pc = s.pc else t.pc = s.stack[s.sp.val - 1] := by
  rcases s.pop_cases with ⟨hsp, e⟩ | ⟨hsp, e⟩ <;> simp only [execReturn, e] at h <;> cases h
  · rw [dif_neg hsp.ne']; rfl
  · rw [dif_pos hsp]; rfl

/-- A poll without key writes inside its scan finds no key exactly when none is pressed (43_display_keys.md R196). -/
theorem pressedInScan_eq_nil_iff (hw : s.scanWrites = []) :
    s.pressedInScan = [] ↔ ∀ k : Fin 16, s.key[k] = .released := by
  have hreleased : ∀ ks : KeyState, ks ≠ .pressed ↔ ks = .released := fun ks => by cases ks <;> decide
  simp only [List.eq_nil_iff_forall_not_mem, State.mem_pressedInScan_iff, hw, keyAfter_nil, hreleased]
  exact ⟨fun h k => h (BitVec.ofFin k), fun h k => h k.toFin⟩

/-- `LD Vx, K` without key writes inside its scan waits exactly while no key is pressed (43_display_keys.md R196). -/
theorem execWaitKey_pc (x : Nibble) (hw : s.scanWrites = []) (hl : s.pcLegal = true) (h : execWaitKey x s = .next t) :
    if ∀ k : Fin 16, s.key[k] = .released then t.pc = s.pc else t.pc.toNat = s.pc.toNat + 2 := by
  simp only [← pressedInScan_eq_nil_iff hw]
  unfold execWaitKey at h
  split at h <;> cases h
  next hnil => rw [if_pos hnil]
  next k hone => rw [if_neg (by simp [hone])]; exact pc_add_two_toNat hl
  next k ks _ hmore => rw [if_neg (by simp [hmore])]; exact pc_add_two_toNat hl

/-- A cycle that fetches a valid opcode runs its instruction (40_engine_cycle.md R121). -/
theorem engineCycle_of_valid (hf : s.canFetch) (hd : decode s.fetch = .valid i) : engineCycle s = exec i s := by
  obtain ⟨hrun, hstop, hl⟩ := hf
  simp [engineCycle, State.cycle, hrun, hstop, hl, hd]

/-- A cycle that fetches an invalid opcode is a decode miss (60_exceptions.md R235). -/
theorem engineCycle_of_invalid (hf : s.canFetch) (op : Word) (hd : decode s.fetch = .invalidInstruction op) :
    engineCycle s = .next (s.decodeMiss op) := by
  obtain ⟨hrun, hstop, hl⟩ := hf
  simp [engineCycle, State.cycle, hrun, hstop, hl, hd]

/-! ### Reset (10_state.md R40) -/

/-- The state of R40 meets the invariant for every configuration that reset accepts. -/
theorem resetWith_inv (c : Config) (hc : c.wf = true) : (State.resetWith c).Inv where
  cfg_wf := hc
  ram_wf := Memory.wf_nil _
  fb_wf := Framebuffer.wf_nil _
  pc_bound := show (0x0200 : Word).toNat ≤ 0x10FE by decide
  live := fun _ hk => absurd hk (Nat.not_lt_zero _)
  diag_matches := rfl
  log_misses := nofun

/-- Loading an image that fits keeps the invariant. -/
theorem writeBytes_inv (hs : s.Inv) (a : Nat) (bs : List Byte) (ha : a + bs.length ≤ ramSize) : (s.writeBytes a bs).Inv :=
  { hs with ram_wf := Memory.writeBytes_wf _ bs _ a hs.ram_wf (.inr ha) }

/-- The reset contents of RAM less the image, for a font of the length reset asks for (10_state.md R40). -/
theorem resetByte_eq (c : Config) (hc : c.wf = true) (a : Nat) :
    resetByte c a = if c.fontBase ≤ a ∧ a < c.fontBase + 80 then c.font.getD (a - c.fontBase) 0 else 0 := by
  simp only [Config.wf, Bool.and_eq_true, decide_eq_true_eq] at hc
  obtain ⟨⟨-, hfont⟩, -⟩ := hc
  unfold resetByte
  by_cases hge : c.fontBase ≤ a
  · by_cases hlt : a < c.fontBase + 80
    · simp [hge, hlt]
    · have hout : c.font.length ≤ a - c.fontBase := by rw [hfont]; simp only [fontLength, glyphBytes]; omega
      simp [hge, hlt, List.getElem?_eq_none hout]
  · simp [hge]

/-- RAM after reset: the image, the font, and 0x00 elsewhere (10_state.md R40). -/
theorem readByte_reset (c : Config) (hc : c.wf = true) (rom : List Byte) (a : Nat) :
    ((State.resetWith c).writeBytes progBase rom).readByte a =
      if 0x200 ≤ a ∧ a < 0x200 + rom.length then rom.getD (a - 0x200) 0
      else if c.fontBase ≤ a ∧ a < c.fontBase + 80 then c.font.getD (a - c.fontBase) 0 else 0 := by
  rw [State.readByte_writeBytes _ List.Pairwise.nil, ← resetByte_eq c hc a]
  rfl

/-- Reset accepts a good configuration with an image that fits (70_reset_and_hazards.md R281, R283). -/
theorem construct_ok (c : Config) (hc : c.wf = true) (rom : List Byte) (hr : rom.length ≤ 3584) :
    State.construct c rom = .ok ((State.resetWith c).writeBytes progBase rom) := by
  have hfit : imageFits rom = true := decide_eq_true hr
  simp [State.construct, hc, hfit]

end

/-! ### The obligations of 10_state.md -/

/-- Settles O22: the invariant is kept component by component, over the effects of an instruction, then over the cases of a
cycle, then over whose step it is. -/
theorem stepKeepsInvariant : Obligations.StepKeepsInvariant := by
  intro s t hs h
  rcases step_engine_or_agent h with ⟨scan, reads, rest, h⟩ | ⟨_, _, _, _, _, _, rfl, -, -⟩
  · exact engineTurn_inv (s := s.onTurn scan rest) (hs.congr rfl rfl rfl rfl rfl rfl rfl rfl rfl) reads h
  · exact hs.congr rfl rfl rfl rfl rfl rfl rfl rfl rfl

/-- Settles O15: a halted engine has no turn, and another agent writes none of the frozen components. -/
theorem haltedStateIsFrozen : Obligations.HaltedStateIsFrozen := by
  intro s t hh h
  rcases step_engine_or_agent h with ⟨scan, reads, rest, h⟩ | ⟨_, _, _, _, _, _, rfl, -, -⟩
  · rw [engineTurn_of_halted (s := s.onTurn scan rest) hh] at h; cases h
  · intro p hp
    cases p with
    | dt | st | key | stopReq | turns | seen => exact absurd (by decide) hp
    | v | ram => exact fun _ => rfl
    | fb => exact fun _ _ => rfl
    | stack => exact ⟨rfl, rfl⟩
    | _ => rfl

/-- Settles O24: a cycle keeps the configuration and the stop request and appends to LOG; of the other agents the host alone
writes the stop request. -/
theorem configFixedLogGrowsStopStays : Obligations.ConfigFixedLogGrowsStopStays := by
  intro s t h
  rcases step_engine_or_agent h with ⟨scan, reads, rest, h⟩ | ⟨_, _, _, _, _, _, rfl, hraised, hhost⟩
  · obtain ⟨u, hu, rfl⟩ := engineTurn_next _ t reads h
    obtain ⟨hcfg, -, -, -, hstop, -, hlog⟩ := engineCycle_keeps _ u hu
    exact ⟨hcfg, hlog, fun hs => hstop.trans hs, fun _ => hstop⟩
  · exact ⟨rfl, ⟨[], (List.append_nil _).symm⟩, hraised, hhost⟩

/-- Settles O20: the frame of every instruction, from its effect and from what all instructions keep. -/
theorem onlyNamedInstructionsWrite : Obligations.OnlyNamedInstructionsWrite := by
  intro i s t h
  have e := exec_effect i s t h
  obtain ⟨hcfg, hkey, hlog, hstop, hturns, hscan, hseen⟩ := exec_keeps s t i h
  obtain ⟨hdt, hst⟩ := exec_timers s t i h
  refine ⟨fun p hp => ?_, e.stack, fun hn => ?_, fun hn => ?_, fun hn => ?_, fun hd hc => ?_, e.i_eq⟩
  · cases p with
    | cfg => exact hcfg
    | key => exact hkey
    | log => exact hlog
    | stopReq => exact hstop
    | turns => exact hturns
    | scanWrites => exact hscan
    | seen => exact hseen
    | _ => exact absurd (by decide) hp
  · exact State.readByte_congr hcfg (e.ram.resolve_right fun hw => hn hw.1)
  · exact hdt.resolve_right fun ⟨x, hx, _⟩ => hn ⟨x, hx⟩
  · exact hst.resolve_right fun ⟨x, hx, _⟩ => hn ⟨x, hx⟩
  · refine State.getPixel_congr hcfg (e.fb.resolve_right ?_)
    rintro (⟨hi, -⟩ | ⟨hi, -⟩)
    · exact hc hi
    · exact hd hi

/-- Settles O21: by the three kinds of instruction, those that write a flag, those that name a destination, and the rest. -/
theorem flagRegisterRule : Obligations.FlagRegisterRule := by
  intro i s t h
  have e := exec_effect i s t h
  cases i with
  | addWithCarry | subtract | subtractReversed | shiftRight | shiftLeft =>
    cases h
    exact flag_of_setFlagThenV _ _ _ _
  | draw x y n => simpa [State.operandInRam] using execDraw_flag x y n h
  | loadImm | addImm | move | or | and | xor | random | readDelay | waitKey | loadRegs =>
    exact fun hx => e.flag_kept rfl fun hd => hx (Option.some.inj hd)
  | _ => exact e.flag_kept rfl nofun

/-- Settles O19: the instructions that set the pc one by one, the others by their common effect. -/
theorem pcAfterCycle : Obligations.PcAfterCycle := by
  intro s t hm hf h
  have hl := hf.2.2
  rw [step_engine s hm] at h
  cases hd : decode s.fetch with
  | invalidInstruction op =>
    rw [engineCycle_of_invalid hf op hd] at h
    cases h
    rcases s.decodeMiss_cases op with ⟨hp, e⟩ | ⟨hp, e⟩ <;> simp only [hp, e]
    · exact ⟨rfl, rfl⟩
    · exact pc_add_two_toNat hl
  | valid i =>
    rw [engineCycle_of_valid hf hd] at h
    cases i with
    | jump nnn => cases h; exact zextAddr_toNat nnn
    | jumpOffset nnn => cases h; exact jumpOffset_toNat nnn s
    | call nnn => exact execCall_pc nnn h
    | returnFromSubroutine => exact execReturn_pc h
    | skipEqImm | skipNeqImm | skipEqReg | skipNeqReg | skipKeyPressed | skipKeyNotPressed =>
      cases h
      exact skipIf_pc_toNat hl _
    | waitKey x => exact execWaitKey_pc x hm.2 hl h
    | _ =>
      rcases (exec_effect _ s t h).pc_of_not_setsPc rfl with ⟨hhalt, hpc⟩ | ⟨hrun, hpc⟩
      · exact (if_pos hhalt).mpr hpc
      · exact (if_neg (by simp [hrun, hf.1])).mpr (by rw [hpc, pc_add_two_toNat hl])

/-- Settles O25: the two refusals by the checks of reset; the table from the state constructed. -/
theorem resetConstructsTheTableState : Obligations.ResetConstructsTheTableState := by
  intro c rom
  refine ⟨fun hc => ?_, fun hc hr => ?_, fun hc hr => ?_⟩
  · simp [State.construct, hc]
  · have hfit : imageFits rom = false := decide_eq_false (Nat.not_le.2 hr)
    simp [State.construct, hc, hfit]
  · have hinv := writeBytes_inv (resetWith_inv c hc) progBase rom (by simp only [ramSize, progBase]; omega)
    exact ⟨_, construct_ok c hc rom hr, hinv, rfl, fun r => Vector.getElem_replicate _, rfl, rfl, rfl,
      fun k => Vector.getElem_replicate _, readByte_reset c hc rom, rfl, rfl, fun _ _ => rfl,
      fun k => Vector.getElem_replicate _, rfl, rfl, rfl, ⟨rfl, rfl⟩, rfl, rfl, rfl⟩

/-- Settles O23: the reference configuration is one that reset accepts. -/
theorem resetMeetsInvariant : Obligations.ResetMeetsInvariant :=
  resetWith_inv Config.reference (by decide)

end Sys2Proof.Machine

/-! The fetch, a store that the next fetch sees, and the pixel writes of an instruction one by one (20_memory.md R62, R73, R74,
R79): laws of the fetch, of `LD [I], Vx` and of the display instructions, and from these the obligations of 20_memory.md. -/

namespace Sys2Proof

/-- The number of an opcode of two bytes: the first has the weight 256 (20_memory.md R62). -/
theorem opcodeOf_toNat (hi lo : Byte) : (opcodeOf hi lo).toNat = hi.toNat * 256 + lo.toNat := by
  rw [opcodeOf, BitVec.toNat_append, ← Nat.shiftLeft_add_eq_or_of_lt lo.isLt, Nat.shiftLeft_eq]

end Sys2Proof

namespace Sys2Proof.Machine

section

variable (s : State)

/-! ### `LD [I], Vx` and the fetch after it -/

/-- `LD [I], Vx` with its bytes inside RAM stores and advances (44_timers_index_memory.md R218). -/
theorem exec_storeRegs_of_inRam (x : Nibble) (h : s.i.toNat + x.toNat < 4096) :
    exec (.storeRegs x) s = .next (s.writeBytes s.i.toNat (s.regsUpTo x)).advance := by
  have hin : s.operandInRam (x.toNat + 1) = true := (s.operandInRam_iff _).2 (.inr h)
  exact if_pos hin

/-- The bytes `LD [I], Vx` stores, one by one (44_timers_index_memory.md R218). -/
theorem readByte_storeRegs (hm : Memory.wf (resetByte s.cfg) s.ram) (x : Nibble) (k : Nat) (hk : k ≤ x.toNat) :
    (s.writeBytes s.i.toNat (s.regsUpTo x)).readByte (s.i.toNat + k) = s.getV (BitVec.ofNat 4 k) := by
  rw [s.readByte_writeBytes hm.1, if_pos (by rw [State.length_regsUpTo]; omega), Nat.add_sub_cancel_left,
    s.getD_regsUpTo x k hk]

/-- Where the advance does not wrap, it adds one instruction width (40_engine_cycle.md R126 (d)). -/
theorem advance_pc_toNat (h : s.pc.toNat + 2 < 65536) : s.advance.pc.toNat = s.pc.toNat + 2 := by
  rw [State.advance_writes, BitVec.toNat_add]
  exact Nat.mod_eq_of_lt h

/-- The fetch after an advance reads the two bytes behind the instruction (40_engine_cycle.md R124). -/
theorem fetch_advance (h : s.pc.toNat + 2 < 65536) :
    s.advance.fetch = opcodeOf (s.readByte (s.pc.toNat + 2)) (s.readByte (s.pc.toNat + 2 + 1)) := by
  rw [State.fetch, advance_pc_toNat s h]
  rfl

/-! ### The pixel writes of an instruction -/

/-- The pixel writes of `DRW` with its sprite inside RAM invert the set bits of the sprite (43_display_keys.md R192). -/
theorem pixelWrites_draw (x y n : Nibble) (h : s.operandInRam n.toNat = true) :
    s.pixelWrites (.draw x y n) = toggleWrites s.cfg s.fb (spriteHits s x y n) :=
  (if_pos h).trans (s.drawWrites_eq x y n)

/-- No instruction but `CLS` and a `DRW` with its sprite inside RAM writes a pixel (10_state.md R30). -/
theorem pixelWrites_eq_nil (i : Instr) (hc : i ≠ .clearDisplay)
    (hd : ∀ x y n, i = .draw x y n → s.operandInRam n.toNat = false) : s.pixelWrites i = [] := by
  cases i with
  | clearDisplay => exact absurd rfl hc
  | draw x y n => exact if_neg (by simp [hd x y n rfl])
  | _ => rfl

/-- `DRW` leaves the framebuffer its pixel writes make, none where it halts (43_display_keys.md R192). -/
theorem execDraw_fb (t : State) (x y n : Nibble) (h : execDraw x y n s = .next t) :
    t.fb = s.fb.setAll s.cfg (s.pixelWrites (.draw x y n)) := by
  unfold execDraw at h
  split_ifs at h with hin <;> cases h <;> simp [State.pixelWrites, hin, Framebuffer.setAll]

variable (c : Config)

/-- A pixel after the first writes of `CLS` (43_display_keys.md R191). -/
theorem Framebuffer.get_setAll_take_clearWrites (hc : c.wf = true) (fb : Framebuffer) (k a b : Nat) :
    (fb.setAll c ((clearWrites c).take k)).get c a b = (fb.get c a b && decide (k ≤ pixelCell c a b)) := by
  rw [Framebuffer.get, Framebuffer.get, ← Bool.decide_and, decide_eq_decide]
  exact Framebuffer.mem_setAll_take_clearWrites c hc fb k _ (pixelCell_lt c hc a b)

/-- All the writes of `CLS` leave every pixel unset (43_display_keys.md R191). -/
theorem Framebuffer.get_setAll_clearWrites (hc : c.wf = true) (fb : Framebuffer) (a b : Nat) :
    (fb.setAll c (clearWrites c)).get c a b = false := by
  obtain ⟨hdark, w, hw, hcell⟩ := clearWrites_cover c hc a b
  rw [Framebuffer.get, decide_eq_false_iff_not, Framebuffer.mem_setAll_dark c _ hdark]
  exact fun h => h.2 w hw hcell.symm

end

/-! ### The obligations of 20_memory.md -/

/-- Settles O9: the number of the opcode that the two bytes make. -/
theorem fetchIsBigEndian : Obligations.FetchIsBigEndian :=
  fun _ => opcodeOf_toNat _ _

/-- Settles O60: the fetch after the store reads the two bytes from pc + 2 on, which are the first two stored. -/
theorem storeSeenByNextFetch : Obligations.StoreSeenByNextFetch := by
  intro x s hm hx hpc hi hin
  have h0 := readByte_storeRegs s hm x 0 (Nat.zero_le _)
  have h1 := readByte_storeRegs s hm x 1 hx
  rw [hi] at h0 h1
  refine ⟨_, exec_storeRegs_of_inRam s x hin, ?_⟩
  rw [hi]
  exact (fetch_advance (s.writeBytes _ _) hpc).trans (congrArg₂ opcodeOf h0 h1)

/-- Settles O34: the framebuffer an instruction leaves by its kind (`CLS`, `DRW`, no pixel write); the first k writes of `CLS`
cell by cell, those of `DRW` by the parity of the hits. -/
theorem pixelWritesMakeTheFramebuffer : Obligations.PixelWritesMakeTheFramebuffer := by
  refine ⟨fun i s t a b hs h => ?_, fun s a b k hc => ?_, fun x y n s a b k hc hin => ?_, fun i s hc hd => ?_⟩
  · have hcfg : t.cfg = s.cfg := (exec_keeps s t i h).1
    rw [State.getPixel_eq, hcfg]
    cases i with
    | clearDisplay => cases h; exact Framebuffer.get_setAll_clearWrites _ hs.cfg_wf _ a b
    | draw x y n => rw [execDraw_fb s t x y n h]
    | _ =>
      have hfb : t.fb = s.fb := (exec_effect _ s t h).fb.resolve_right (by simp)
      rw [hfb]; rfl
  · exact Framebuffer.get_setAll_take_clearWrites _ hc _ k a b
  · have hram : s.operandInRam n.toNat = true := decide_eq_true hin
    rw [pixelWrites_draw s x y n hram, take_toggleWrites]
    exact Framebuffer.get_setAll_toggleWrites _ hc _ _ a b
  · refine pixelWrites_eq_nil s i hc fun x y n hi => ?_
    obtain ⟨hpos, hout⟩ := hd x y n hi
    exact decide_eq_false (by simp only [ramSize]; omega)

end Sys2Proof.Machine

/-! The decoder against the encoder and the opcode map (30_encoding.md R91 to R99, R106): the opcodes an instruction is read from,
one for each value of the digit its row ignores, are the opcodes that decode to it, and they are the opcodes its row matches. From
these the obligations of 30_encoding.md. -/

namespace Sys2Proof

/-! ### The fields of an opcode -/

section

variable (top x y n : Nibble) (kk : Byte) (nnn : Addr)

@[simp] theorem opTop_formatNNN : opTop (formatNNN top nnn) = top := (fields_formatNNN top nnn).1

@[simp] theorem opNNN_formatNNN : opNNN (formatNNN top nnn) = nnn := (fields_formatNNN top nnn).2

@[simp] theorem opTop_formatXKK : opTop (formatXKK top x kk) = top := (fields_formatXKK top x kk).1

@[simp] theorem opX_formatXKK : opX (formatXKK top x kk) = x := (fields_formatXKK top x kk).2.1

@[simp] theorem opKK_formatXKK : opKK (formatXKK top x kk) = kk := (fields_formatXKK top x kk).2.2

@[simp] theorem opTop_formatXYN : opTop (formatXYN top x y n) = top := (fields_formatXYN top x y n).1

@[simp] theorem opX_formatXYN : opX (formatXYN top x y n) = x := (fields_formatXYN top x y n).2.1

@[simp] theorem opY_formatXYN : opY (formatXYN top x y n) = y := (fields_formatXYN top x y n).2.2.1

@[simp] theorem opN_formatXYN : opN (formatXYN top x y n) = n := (fields_formatXYN top x y n).2.2.2

end

section

variable {op mask bits : Word} {top n : Nibble} {kk : Byte}

/-- An opcode is its key and its address (R91, R92). -/
theorem formatNNN_eq (ht : opTop op = top) : formatNNN top (opNNN op) = op := by
  subst ht
  apply BitVec.eq_of_getLsbD_eq
  intro j hj
  rw [getLsbD_formatNNN, opTop, opNNN, BitVec.getLsbD_extractLsb', BitVec.getLsbD_extractLsb']
  interval_cases j <;> simp

/-- An opcode is its key, its first register digit and its low byte (R91, R92). -/
theorem formatXKK_eq (ht : opTop op = top) (hk : opKK op = kk) : formatXKK top (opX op) kk = op := by
  subst ht hk
  apply BitVec.eq_of_getLsbD_eq
  intro j hj
  simp only [getLsbD_formatXKK, opTop, opX, opKK, BitVec.getLsbD_extractLsb']
  interval_cases j <;> simp

/-- An opcode is its four digits (R91, R92). -/
theorem formatXYN_eq (ht : opTop op = top) (hn : opN op = n) : formatXYN top (opX op) (opY op) n = op := by
  subst ht hn
  apply BitVec.eq_of_getLsbD_eq
  intro j hj
  simp only [getLsbD_formatXYN, opTop, opX, opY, opN, BitVec.getLsbD_extractLsb']
  interval_cases j <;> simp

/-- A match under a mask that holds the key fixes the key. -/
theorem opTop_eq_of_match (hm : opTop mask = BitVec.allOnes 4) (h : op &&& mask = bits) : opTop op = opTop bits := by
  rw [← h, opTop, opTop, BitVec.extractLsb'_and, ← opTop, ← opTop, hm, BitVec.and_allOnes]

/-- A match under a mask that holds the low nibble fixes the low nibble. -/
theorem opN_eq_of_match (hm : opN mask = BitVec.allOnes 4) (h : op &&& mask = bits) : opN op = opN bits := by
  rw [← h, opN, opN, BitVec.extractLsb'_and, ← opN, ← opN, hm, BitVec.and_allOnes]

/-- A match under a mask that holds the low byte fixes the low byte. -/
theorem opKK_eq_of_match (hm : opKK mask = BitVec.allOnes 8) (h : op &&& mask = bits) : opKK op = opKK bits := by
  rw [← h, opKK, opKK, BitVec.extractLsb'_and, ← opKK, ← opKK, hm, BitVec.and_allOnes]

end

/-! ### The opcodes of an instruction -/

/-- The opcodes an instruction is read from: its encoding, with any value `d` for the digit its row ignores (R98, R106). -/
def Instr.opcodeWith (i : Instr) (d : Nibble) : Word :=
  match i with
  | .skipEqReg x y => formatXYN 0x5#4 x y d
  | .skipNeqReg x y => formatXYN 0x9#4 x y d
  | .shiftRight x => formatXYN 0x8#4 x d 0x6#4
  | .shiftLeft x => formatXYN 0x8#4 x d 0xE#4
  | i => i.encode

/-- The encoder writes 0 for the ignored digit. -/
theorem Instr.opcodeWith_zero (i : Instr) : i.opcodeWith 0 = i.encode := by
  cases i <;> rfl

/-- The decoder reads an instruction from each of its opcodes (R94, R96). -/
theorem decode_opcodeWith (i : Instr) (d : Nibble) : decode (i.opcodeWith d) = .valid i := by
  cases i with
  | clearDisplay => exact (by decide : decode 0x00E0#16 = .valid .clearDisplay)
  | returnFromSubroutine => exact (by decide : decode 0x00EE#16 = .valid .returnFromSubroutine)
  | move | or | and | xor | addWithCarry | subtract | shiftRight | subtractReversed | shiftLeft =>
    simp [Instr.opcodeWith, Instr.encode, decode, decodeFamily8]
  | skipKeyPressed | skipKeyNotPressed => simp [Instr.opcodeWith, Instr.encode, decode, decodeFamilyE]
  | readDelay | waitKey | setDelay | setSound | addIndex | loadFont | storeBcd | storeRegs | loadRegs =>
    simp [Instr.opcodeWith, Instr.encode, decode, decodeFamilyF]
  | _ => simp [Instr.opcodeWith, Instr.encode, decode]

/-- Clearing the digit its row ignores turns each opcode of an instruction into its encoding (R98, R106). -/
theorem Instr.opcodeWith_clear_ignored (i : Instr) (d : Nibble) : i.opcodeWith d &&& ~~~i.row.ignored = i.encode := by
  cases i with
  | skipEqReg | skipNeqReg | shiftRight | shiftLeft =>
    apply BitVec.eq_of_getLsbD_eq
    intro j hj
    simp only [Instr.opcodeWith, Instr.encode, Instr.row, BitVec.getLsbD_and, getLsbD_formatXYN]
    interval_cases j <;> simp
  | _ => exact (congrArg _ BitVec.not_zero).trans BitVec.and_allOnes

/-! ### What the decoder reads -/

section

variable {op : Word} {i : Instr}

/-- The opcodes that family 0 reads an instruction from are the two words it matches (R95). -/
theorem opcodeWith_of_decodeFamily0 (h : decodeFamily0 op = .valid i) : ∃ d, i.opcodeWith d = op := by
  unfold decodeFamily0 at h
  split_ifs at h with hc hr <;> cases h
  · exact ⟨0, hc.symm⟩
  · exact ⟨0, hr.symm⟩

/-- An opcode that family 8 reads an instruction from is its key, its two register digits and the discriminant (R95). -/
theorem opcodeWith_of_decodeFamily8 (ht : opTop op = 0x8) (h : decodeFamily8 op = .valid i) : ∃ d, i.opcodeWith d = op := by
  unfold decodeFamily8 at h
  split at h <;> cases h
  all_goals exact ⟨opY op, formatXYN_eq ht (by assumption)⟩

/-- An opcode that family E reads an instruction from is its key, its register digit and the discriminant (R95). -/
theorem opcodeWith_of_decodeFamilyE (ht : opTop op = 0xE) (h : decodeFamilyE op = .valid i) : ∃ d, i.opcodeWith d = op := by
  unfold decodeFamilyE at h
  split at h <;> cases h
  all_goals exact ⟨0, formatXKK_eq ht (by assumption)⟩

/-- An opcode that family F reads an instruction from is its key, its register digit and the discriminant (R95). -/
theorem opcodeWith_of_decodeFamilyF (ht : opTop op = 0xF) (h : decodeFamilyF op = .valid i) : ∃ d, i.opcodeWith d = op := by
  unfold decodeFamilyF at h
  split at h <;> cases h
  all_goals exact ⟨0, formatXKK_eq ht (by assumption)⟩

/-- The dispatch of the decoder (R94, R95): families 0, 8, E and F have a discriminant; in every other family the opcode is one
of the instruction it decodes to. -/
theorem decode_by_family (op : Word) :
    (opTop op = 0x0 ∧ decode op = decodeFamily0 op) ∨ (opTop op = 0x8 ∧ decode op = decodeFamily8 op) ∨
    (opTop op = 0xE ∧ decode op = decodeFamilyE op) ∨ (opTop op = 0xF ∧ decode op = decodeFamilyF op) ∨
    ((opTop op ≠ 0x0#4 ∧ opTop op ≠ 0x8#4 ∧ opTop op ≠ 0xE#4 ∧ opTop op ≠ 0xF#4) ∧
      ∃ i, decode op = .valid i ∧ i.opcodeWith (opN op) = op) := by
  unfold decode
  split
  case h_1 ht => exact .inl ⟨ht, rfl⟩
  case h_9 ht => exact .inr (.inl ⟨ht, rfl⟩)
  case h_15 ht => exact .inr (.inr (.inl ⟨ht, rfl⟩))
  case h_16 =>
    have ht : opTop op = 0xF := by generalize opTop op = n at *; decide +revert
    exact .inr (.inr (.inr (.inl ⟨ht, rfl⟩)))
  all_goals refine .inr (.inr (.inr (.inr ⟨by simp [*], _, rfl, ?_⟩)))
  case h_2 ht | h_3 ht | h_11 ht | h_12 ht => exact formatNNN_eq ht
  case h_4 ht | h_5 ht | h_7 ht | h_8 ht | h_13 ht => exact formatXKK_eq ht rfl
  case h_6 ht | h_10 ht | h_14 ht => exact formatXYN_eq ht rfl

/-- An instruction is read from none but its opcodes (R94, R96). -/
theorem opcodeWith_of_decode (h : decode op = .valid i) : ∃ d, i.opcodeWith d = op := by
  obtain ⟨-, hd⟩ | ⟨ht, hd⟩ | ⟨ht, hd⟩ | ⟨ht, hd⟩ | ⟨-, j, hd, hj⟩ := decode_by_family op <;> rw [hd] at h
  · exact opcodeWith_of_decodeFamily0 h
  · exact opcodeWith_of_decodeFamily8 ht h
  · exact opcodeWith_of_decodeFamilyE ht h
  · exact opcodeWith_of_decodeFamilyF ht h
  · cases h
    exact ⟨_, hj⟩

end

/-! ### The rows of the opcode map -/

/-- Every instruction's encoding lies in its row. -/
theorem encodingRow (i : Instr) : Laws.EncodingRow.Statement i := by
  open Laws.EncodingRow in
  cases i
  exacts [clearDisplay, returnFromSubroutine, jump _, call _, skipEqImm _ _, skipNeqImm _ _, skipEqReg _ _, loadImm _ _,
    addImm _ _, move _ _, or _ _, and _ _, xor _ _, addWithCarry _ _, subtract _ _, shiftRight _, subtractReversed _ _,
    shiftLeft _, skipNeqReg _ _, loadIndex _, jumpOffset _, random _ _, draw _ _ _, skipKeyPressed _, skipKeyNotPressed _,
    readDelay _, waitKey _, setDelay _, setSound _, addIndex _, loadFont _, storeBcd _, storeRegs _, loadRegs _]

/-- A row's mask holds none of the digits the row ignores. -/
theorem Instr.row_mask_clear_ignored (i : Instr) : ~~~i.row.ignored &&& i.row.mask = i.row.mask := by
  cases i <;> simp only [Instr.row] <;> rfl

/-- Every instruction's row is in the map (R96). -/
theorem Instr.row_mem (i : Instr) : i.row ∈ opcodeTable := by
  cases i <;> simp [Instr.row, opcodeTable]

/-- The row of an instruction matches each of the instruction's opcodes (R96). -/
theorem Instr.row_matches (i : Instr) (d : Nibble) : i.opcodeWith d &&& i.row.mask = i.row.bits :=
  calc i.opcodeWith d &&& i.row.mask
    _ = (i.opcodeWith d &&& ~~~i.row.ignored) &&& i.row.mask := by rw [BitVec.and_assoc, i.row_mask_clear_ignored]
    _ = i.encode &&& i.row.mask := by rw [i.opcodeWith_clear_ignored]
    _ = i.row.bits := (encodingRow i).1

/-- An opcode that the row of an instruction matches decodes to an instruction of that row (R94 to R96). -/
theorem decode_of_row_matches (op : Word) (j : Instr) (h : op &&& j.row.mask = j.row.bits) :
    ∃ i, decode op = .valid i ∧ i.row = j.row := by
  cases j with simp only [Instr.row] at h ⊢
  | clearDisplay =>
    obtain rfl := BitVec.and_allOnes.symm.trans h
    exact ⟨.clearDisplay, rfl, rfl⟩
  | returnFromSubroutine =>
    obtain rfl := BitVec.and_allOnes.symm.trans h
    exact ⟨.returnFromSubroutine, rfl, rfl⟩
  | move | or | and | xor | addWithCarry | subtract | shiftRight | subtractReversed | shiftLeft =>
    rw [decode, opTop_eq_of_match rfl h]
    simp only [decodeFamily8, opN_eq_of_match rfl h]
    exact ⟨_, rfl, rfl⟩
  | skipKeyPressed | skipKeyNotPressed =>
    rw [decode, opTop_eq_of_match rfl h]
    simp only [decodeFamilyE, opKK_eq_of_match rfl h]
    exact ⟨_, rfl, rfl⟩
  | readDelay | waitKey | setDelay | setSound | addIndex | loadFont | storeBcd | storeRegs | loadRegs =>
    rw [decode, opTop_eq_of_match rfl h]
    simp only [decodeFamilyF, opKK_eq_of_match rfl h]
    exact ⟨_, rfl, rfl⟩
  | _ =>
    rw [decode, opTop_eq_of_match rfl h]
    exact ⟨_, rfl, rfl⟩

/-- An opcode that a row of the map matches decodes to an instruction of that row (R94 to R96). -/
theorem decode_of_mem_opcodeTable (op : Word) (r : OpcodeRow) (hr : r ∈ opcodeTable) (h : op &&& r.mask = r.bits) :
    ∃ i, decode op = .valid i ∧ i.row = r := by
  obtain ⟨j, -, rfl⟩ := List.mem_map.1 hr
  exact decode_of_row_matches op j h

/-! ### The invalid opcodes -/

section

variable (op : Word)

/-- Exactly which opcodes of family 0 are invalid (R99 (a), D6). -/
theorem decodeFamily0_invalid_iff :
    decodeFamily0 op = .invalidInstruction op ↔ op ≠ 0x00E0 ∧ op ≠ 0x00EE := by
  unfold decodeFamily0
  split_ifs with hc hr
  · exact iff_of_false nofun fun h => h.1 hc
  · exact iff_of_false nofun fun h => h.2 hr
  · exact iff_of_true rfl ⟨hc, hr⟩

/-- Exactly which opcodes of family 8 are invalid (R99 (b)). -/
theorem decodeFamily8_invalid_iff :
    decodeFamily8 op = .invalidInstruction op ↔ opN op ∈ ([0x8, 0x9, 0xA, 0xB, 0xC, 0xD, 0xF] : List Nibble) := by
  unfold decodeFamily8
  generalize opN op = n
  split
  case h_10 => exact iff_of_true rfl (by decide +revert)
  all_goals exact iff_of_false nofun (by decide)

/-- Exactly which opcodes of family E are invalid (R99 (c)). -/
theorem decodeFamilyE_invalid_iff :
    decodeFamilyE op = .invalidInstruction op ↔ opKK op ∉ ([0x9E, 0xA1] : List Byte) := by
  unfold decodeFamilyE
  generalize opKK op = kk
  split
  case h_3 => exact iff_of_true rfl (by simp_all)
  all_goals exact iff_of_false nofun (by decide)

/-- Exactly which opcodes of family F are invalid (R99 (d)). -/
theorem decodeFamilyF_invalid_iff :
    decodeFamilyF op = .invalidInstruction op ↔
      opKK op ∉ ([0x07, 0x0A, 0x15, 0x18, 0x1E, 0x29, 0x33, 0x55, 0x65] : List Byte) := by
  unfold decodeFamilyF
  generalize opKK op = kk
  split
  case h_10 => exact iff_of_true rfl (by simp_all)
  all_goals exact iff_of_false nofun (by decide)

/-- An opcode that no row of the map matches decodes to the sentinel that carries it (R99, R106). -/
theorem decode_invalid_of_no_row (h : ∀ r ∈ opcodeTable, op &&& r.mask ≠ r.bits) : decode op = .invalidInstruction op := by
  cases hd : decode op with
  | valid i =>
    obtain ⟨d, rfl⟩ := opcodeWith_of_decode hd
    exact absurd (i.row_matches d) (h _ i.row_mem)
  | invalidInstruction o => rw [Machine.decode_invalid_eq op o hd]

end

/-! ### The obligations of 30_encoding.md -/

/-- Settles O1: the encoding is the opcode of the instruction with the ignored digit 0. -/
theorem decodeOfEncode : Obligations.DecodeOfEncode := by
  intro i
  rw [← i.opcodeWith_zero]
  exact decode_opcodeWith i 0

/-- Settles O2: an opcode that decodes to an instruction is one of the instruction's opcodes. -/
theorem encodeOfDecode : Obligations.EncodeOfDecode := by
  intro op i h
  obtain ⟨d, rfl⟩ := opcodeWith_of_decode h
  exact (i.opcodeWith_clear_ignored d).symm

/-- Settles O3: the row of a decoded instruction matches; a row that matches decodes. -/
theorem decoderFollowsOpcodeMap : Obligations.DecoderFollowsOpcodeMap := by
  refine ⟨fun op i h => ?_, decode_invalid_of_no_row, fun op o h => ⟨Machine.decode_invalid_eq op o h, fun r hr hm => ?_⟩⟩
  · obtain ⟨d, rfl⟩ := opcodeWith_of_decode h
    exact ⟨i.row_mem, i.row_matches d⟩
  · obtain ⟨i, hi, -⟩ := decode_of_mem_opcodeTable op r hr hm
    exact absurd (hi.symm.trans h) nofun

/-- Settles O7: the invalid opcodes family by family; a family without a discriminant has none. -/
theorem invalidOpcodesExactly : Obligations.InvalidOpcodesExactly := by
  intro op
  obtain ⟨ht, hd⟩ | ⟨ht, hd⟩ | ⟨ht, hd⟩ | ⟨ht, hd⟩ | ⟨⟨h0, h8, hE, hF⟩, i, hd, -⟩ := decode_by_family op <;> rw [hd]
  · simp [ht, decodeFamily0_invalid_iff]
  · simp [ht, decodeFamily8_invalid_iff]
  · simp [ht, decodeFamilyE_invalid_iff]
  · simp [ht, decodeFamilyF_invalid_iff]
  · simp [h0, h8, hE, hF]

/-- Settles O4: the decoder is a function, and both rows are the row of what it reads. -/
theorem opcodeRowsDisjoint : Obligations.OpcodeRowsDisjoint := by
  intro op r r' hr hr' h h'
  obtain ⟨i, hi, rfl⟩ := decode_of_mem_opcodeTable op r hr h
  obtain ⟨i', hi', rfl⟩ := decode_of_mem_opcodeTable op r' hr' h'
  cases hi.symm.trans hi'
  rfl

/-- Settles O5: the three opcodes are encodings; an opcode outside the map matches no row. -/
theorem sourceAttestedEncodings : Obligations.SourceAttestedEncodings :=
  ⟨decodeOfEncode .clearDisplay, decodeOfEncode (.jump 0xABC), decodeOfEncode (.addWithCarry 0xA 0xB),
    decode_invalid_of_no_row⟩

/-- Settles O6: the opcodes of the two register skips and of the two shifts. -/
theorem ignoredDigitsDoNotMatter : Obligations.IgnoredDigitsDoNotMatter :=
  fun x y n => ⟨decode_opcodeWith (.skipEqReg x y) n, decode_opcodeWith (.skipNeqReg x y) n,
    decode_opcodeWith (.shiftRight x) y, decode_opcodeWith (.shiftLeft x) y⟩

/-- Settles O8: twelve closed words, evaluated. -/
theorem sampleWordsDecode : Obligations.SampleWordsDecode := by
  unfold Obligations.SampleWordsDecode
  decide

end Sys2Proof

/-! One cycle of the engine, case by case (40_engine_cycle.md R121 to R131): that every instruction answers, what a stop request,
a bad pc and a halt make of the plain turn and of a turn that stands in the list, and the settled state. From these the obligations
of 40_engine_cycle.md. -/

namespace Sys2Proof

/-- The encoding of `JP nnn` is the key 1 above its target (30_encoding.md R92). -/
theorem encode_jump_eq_add (nnn : Addr) : (Instr.jump nnn).encode = 0x1000 + Machine.zextAddr nnn := by
  have hlt := nnn.isLt
  apply BitVec.eq_of_toNat_eq
  rw [Instr.encode, formatNNN, BitVec.toNat_append, ← Nat.shiftLeft_add_eq_or_of_lt hlt, BitVec.toNat_add,
    Machine.zextAddr_toNat]
  exact (Nat.mod_eq_of_lt (by simp only [BitVec.toNat_ofNat]; omega)).symm

end Sys2Proof

namespace Sys2Proof.Machine

section

variable {s t : State} {i : Instr} {scan : List ScanWrite} {reads : List MidRead} {rest : List Turn}

/-! ### An instruction -/

/-- Every instruction answers: where the stack or the operand in RAM decides between an effect and a halt, both are next states
(R126). -/
theorem exec_answers (i : Instr) (s : State) : ∃ t, exec i s = .next t := by
  cases i with
  | returnFromSubroutine =>
    rcases s.pop_cases with ⟨_, e⟩ | ⟨_, e⟩ <;> simp only [exec, execReturn, e] <;> exact ⟨_, rfl⟩
  | call nnn =>
    rcases s.push_cases (s.pc + 2) with ⟨_, e⟩ | ⟨_, e⟩ <;> simp only [exec, execCall, e] <;> exact ⟨_, rfl⟩
  | waitKey | draw | storeBcd | storeRegs | loadRegs =>
    simp only [exec, execWaitKey, execDraw, execStoreBcd, execStoreRegs, execLoadRegs]
    split <;> exact ⟨_, rfl⟩
  | _ => exact ⟨_, rfl⟩

/-- An instruction that halts has written no pixel: `CLS` never halts, and `DRW` checks its sprite before it draws (R127,
43_display_keys.md R192). -/
theorem pixelWrites_eq_nil_of_halts (hr : s.run = .running) (h : exec i s = .next t) (ht : t.run = .halted) :
    s.pixelWrites i = [] := by
  have hne : t.run ≠ s.run := by simp [hr, ht]
  refine pixelWrites_eq_nil s i ?_ ?_
  · rintro rfl
    cases h
    exact absurd rfl hne
  · rintro x y n rfl
    by_contra hin
    simp only [exec, execDraw, if_pos (Bool.eq_true_of_not_eq_false hin)] at h
    cases h
    exact absurd rfl hne

/-! ### A cycle, by its checks in their order -/

/-- The stop request halts the cycle whatever the pc is (R122). -/
theorem engineCycle_of_stopReq (hr : s.run = .running) (hs : s.stopReq = true) :
    engineCycle s = .next (s.haltedWith .stopped none) := by
  simp [engineCycle, State.cycle, hr, hs, State.raise_eq]

/-- A pc outside the legal ones halts the cycle at the fetch (R123). -/
theorem engineCycle_of_illegal_pc (hr : s.run = .running) (hs : s.stopReq = false)
    (hpc : s.pc.toNat % 2 = 1 ∨ s.pc.toNat < 0x200 ∨ 0xFFE < s.pc.toNat) :
    engineCycle s = .next (s.haltedWith .outOfBounds none) := by
  have hl : ¬ s.pcLegal = true := by rw [State.pcLegal_iff]; omega
  simp [engineCycle, State.cycle, hr, hs, hl, State.raise_eq]

/-- A cycle that runs an instruction makes the pixel writes of that instruction. -/
theorem cycleWrites_of_valid (hf : s.canFetch) (hd : decode s.fetch = .valid i) : s.cycleWrites = s.pixelWrites i := by
  obtain ⟨hr, hs, hl⟩ := hf
  simp [State.cycleWrites, State.cycle, hr, hs, hl, hd]

/-- A cycle that halts leaves the old state with RUN and DIAG written, and has made no pixel write (R127, R240). -/
theorem engineCycle_halts (hr : s.run = .running) (h : engineCycle s = .next t) (ht : t.run = .halted) :
    s.cycleWrites = [] ∧ ∃ r op, r ≠ HaltReason.none ∧ t = s.haltedWith r op := by
  have hne : t.run ≠ s.run := by simp [hr, ht]
  rcases s.cycle_cases with ⟨hh, -⟩ | ⟨-, hs, e⟩ | ⟨-, hs, hl, e⟩ | ⟨i, hf, hd, e⟩ | ⟨op, hf, hd, e⟩
  · exact absurd (ht.trans hh.symm) hne
  · simp only [engineCycle, e] at h
    cases h
    exact ⟨by simp only [State.cycleWrites, e], _, _, by decide, rfl⟩
  · simp only [engineCycle, e] at h
    cases h
    exact ⟨by simp only [State.cycleWrites, e], _, _, by decide, rfl⟩
  · rw [engineCycle_of_valid hf hd] at h
    refine ⟨(cycleWrites_of_valid hf hd).trans (pixelWrites_eq_nil_of_halts hr h ht), ?_⟩
    obtain ⟨hrun, -⟩ | ⟨r, hreason, rfl⟩ := exec_halts_or_keeps s t i h
    · exact absurd hrun hne
    · exact ⟨r, _, by rcases hreason with rfl | rfl | rfl <;> decide, rfl⟩
  · rw [engineCycle_of_invalid hf op hd] at h
    cases h
    refine ⟨by simp only [State.cycleWrites, e], ?_⟩
    obtain ⟨-, hmiss⟩ | ⟨-, hmiss⟩ := s.decodeMiss_cases op
    · exact ⟨_, _, by decide, hmiss⟩
    · exact absurd (by rw [hmiss]) hne

/-! ### A turn of the engine -/

/-- With no turn in the list the engine moves (60_exceptions.md R268). -/
theorem step_of_turns_eq_nil (h : s.turns = []) : step s = engineTurn s [] := by
  rw [step, h]

/-- A turn in the list whose cycle halts: the halted state, and then the landing, with no pixel write to see (R73, R127). -/
theorem step_turn_of_halts (hturn : s.turns = .engine scan reads :: rest) (hr : s.run = .running)
    (hc : engineCycle (s.onTurn scan rest) = .next t) (ht : t.run = .halted) :
    ∃ u, step s = .next u ∧ Landed s scan reads [] t u := by
  have hnone : (s.onTurn scan rest).cycleWrites = [] := (engineCycle_halts (s := s.onTurn scan rest) hr hc ht).1
  exact hnone ▸ step_turn_landed s t scan reads rest hturn hc

/-! ### The settled state -/

/-- At a legal pc, the opcode of a settled state decodes to the jump to its own pc (R131, R142). -/
theorem State.settledAt.decode_fetch {a : Word} (h : s.settledAt a) (hl : s.pcLegal = true) :
    ∃ nnn, zextAddr nnn = s.pc ∧ decode s.fetch = .valid (.jump nnn) := by
  obtain ⟨-, rfl, hfetch⟩ := h
  obtain ⟨-, -, hle⟩ := (State.pcLegal_iff s).1 hl
  have hz : zextAddr (s.pc.setWidth 12) = s.pc := by
    apply BitVec.eq_of_toNat_eq
    rw [zextAddr_toNat, BitVec.toNat_setWidth]
    omega
  refine ⟨_, hz, ?_⟩
  rw [hfetch, ← hz, ← encode_jump_eq_add, hz]
  exact decode_opcodeWith (.jump _) 0

/-- A settled state is a fixed point of the step (R131). -/
theorem step_of_settledAt {a : Word} (h : s.settledAt a) (hl : s.pcLegal = true) (hm : s.engineMoves)
    (hs : s.stopReq = false) : step s = .next s := by
  obtain ⟨nnn, hpc, hd⟩ := h.decode_fetch hl
  calc step s
    _ = exec (.jump nnn) s := (step_engine s hm).trans (engineCycle_of_valid ⟨h.1, hs, hl⟩ hd)
    _ = .next (s.jumpTo s.pc) := by rw [← hpc]; rfl
    _ = .next s := rfl

end

/-! ### The obligations of 40_engine_cycle.md -/

/-- Settles O16: the cycle halts with RUN and DIAG written; in a turn that stands in the list the landing follows it. -/
theorem haltingCycleChangesRunAndDiagOnly : Obligations.HaltingCycleChangesRunAndDiagOnly := by
  refine ⟨fun s t hm hr h ht => ?_, fun s t scan reads rest hturn hr h ht => ?_⟩
  · exact (engineCycle_halts hr ((step_engine s hm).symm.trans h) ht).2
  · have hturn' := (step_turn s scan reads rest hturn).symm.trans h
    obtain ⟨u, hu, rfl⟩ := engineTurn_next _ t reads hturn'
    obtain ⟨-, r, op, hne, rfl⟩ := engineCycle_halts (s := s.onTurn scan rest) hr hu ht
    obtain ⟨v, hv, hland⟩ := step_turn_of_halts hturn hr hu ht
    cases h.symm.trans hv
    exact ⟨r, op, hne, hland⟩

/-- Settles O42, by induction on the number of steps, each of which leaves the state as it is. -/
theorem settledStateStays : Obligations.SettledStateStays := by
  intro s a k h hl hm hs
  induction k with
  | zero => rfl
  | succ k ih => exact (run_succ s s k (step_of_settledAt h hl hm hs)).trans ih

/-- Settles O10: the cycle is the decoded instruction, which answers; in a turn that stands in the list the landing follows it. -/
theorem stepRunsDecodedInstruction : Obligations.StepRunsDecodedInstruction := by
  refine ⟨fun s i hm hf hd => (step_engine s hm).trans (engineCycle_of_valid hf hd),
    fun s i scan reads rest hturn hf hd => ?_⟩
  obtain ⟨t, ht⟩ := exec_answers i (s.onTurn scan rest)
  have hc : engineCycle (s.onTurn scan rest) = .next t := (engineCycle_of_valid (s := s.onTurn scan rest) hf hd).trans ht
  have hw : (s.onTurn scan rest).cycleWrites = s.pixelWrites i := cycleWrites_of_valid (s := s.onTurn scan rest) hf hd
  obtain ⟨u, hu, hland⟩ := step_turn_landed s t scan reads rest hturn hc
  exact ⟨t, u, ht, hu, hw ▸ hland⟩

/-- Settles O11: the stop request is the first check of the cycle. -/
theorem stopRequestHaltsFirst : Obligations.StopRequestHaltsFirst :=
  ⟨fun s hm hr hs => (step_engine s hm).trans (engineCycle_of_stopReq hr hs),
    fun s scan _ rest hturn hr hs =>
      step_turn_of_halts hturn hr (engineCycle_of_stopReq (s := s.onTurn scan rest) hr hs) rfl⟩

/-- Settles O12: the check of the pc is the second check of the cycle. -/
theorem illegalPcHaltsAtFetch : Obligations.IllegalPcHaltsAtFetch :=
  ⟨fun s hm hr hs hpc => (step_engine s hm).trans (engineCycle_of_illegal_pc hr hs hpc),
    fun s scan _ rest hturn hr hs hpc =>
      step_turn_of_halts hturn hr (engineCycle_of_illegal_pc (s := s.onTurn scan rest) hr hs hpc) rfl⟩

/-- Settles O14: a halted engine's cycle is the fault, in both kinds of turn. -/
theorem haltedEngineHasNoStep : Obligations.HaltedEngineHasNoStep :=
  fun s hh => ⟨fun hturns => (step_of_turns_eq_nil hturns).trans (engineTurn_of_halted hh []),
    fun scan reads rest hturn =>
      (step_turn s scan reads rest hturn).trans (engineTurn_of_halted (s := s.onTurn scan rest) hh reads)⟩

/-- Settles O18: every arm of the dispatch answers. -/
theorem everyInstructionAnswersNextState : Obligations.EveryInstructionAnswersNextState :=
  exec_answers

end Sys2Proof.Machine

/-! The frames of the pc and of the stack, and each outcome of the transfers of control, on both paths where there are two
(41_control_flow.md R141 to R149). From these the obligations of 41_control_flow.md. -/

namespace Sys2Proof.Machine

section

variable {s : State}

/-! ### Frames -/

/-- A change of the stack with a transfer changes the stack and the pc alone (R141, R143). -/
theorem sameExcept_stack_jumpTo (s : State) (stack : Vector Word 16) (sp : Fin 17) (w : Word) :
    SameExcept [.pc, .stack] s { s with stack := stack, sp := sp, pc := w } := by
  intro p hp
  cases p with
  | pc | stack => exact absurd (by decide) hp
  | v | ram => exact fun _ => rfl
  | fb => exact fun _ _ => rfl
  | _ => rfl

/-- A transfer changes the pc alone (R149). -/
theorem sameExcept_jumpTo (s : State) (w : Word) : SameExcept [.pc] s (s.jumpTo w) := by
  intro p hp
  by_cases hstack : p = .stack
  · subst hstack; exact ⟨rfl, rfl⟩
  · exact sameExcept_stack_jumpTo s s.stack s.sp w p (by simp_all)

/-- A skip is a transfer to one of two addresses, so it changes the pc alone (R144 to R147). -/
theorem sameExcept_skipIf (s : State) (b : Bool) : SameExcept [.pc] s (s.skipIf b) :=
  sameExcept_jumpTo s _

/-! ### The call stack -/

/-- `RET` with a live entry pops it into the pc, and the vacated slot keeps its value (R141). -/
theorem exec_return_of_pos (h : 0 < s.sp.val) :
    exec .returnFromSubroutine s =
      .next { s with sp := ⟨s.sp.val - 1, by omega⟩, pc := s.stack[s.sp.val - 1] } := by
  rcases s.pop_cases with ⟨_, e⟩ | ⟨h0, _⟩
  · simp only [exec, execReturn, e, State.jumpTo]
  · omega

/-- `RET` on an empty stack halts (R141, 60_exceptions.md R232). -/
theorem exec_return_of_empty (h : s.sp.val = 0) :
    exec .returnFromSubroutine s = .next (s.haltedWith .stackUnderflow (some 0x00EE)) := by
  rcases s.pop_cases with ⟨hpos, _⟩ | ⟨_, e⟩
  · omega
  · simp only [exec, execReturn, e]; rfl

/-- `CALL` below the full depth pushes the address of the next instruction and jumps (R143). -/
theorem exec_call_of_lt (nnn : Addr) (h : s.sp.val < 16) :
    exec (.call nnn) s =
      .next { s with
        stack := s.stack.set s.sp.val (s.pc + 2), sp := ⟨s.sp.val + 1, by omega⟩, pc := zextAddr nnn } := by
  rcases s.push_cases (s.pc + 2) with ⟨_, e⟩ | ⟨hfull, _⟩
  · simp only [exec, execCall, e, State.jumpTo]
  · omega

/-- `CALL` at the full depth halts (R143, 60_exceptions.md R233). -/
theorem exec_call_of_full (nnn : Addr) (h : s.sp.val = 16) :
    exec (.call nnn) s = .next (s.haltedWith .stackOverflow (some (formatNNN 0x2 nnn))) := by
  rcases s.push_cases (s.pc + 2) with ⟨hlt, _⟩ | ⟨_, e⟩
  · omega
  · simp only [exec, execCall, e]; rfl

/-- `RET` after `CALL` undoes the push but for the slot it wrote, which lies above the live entries (R141, R143). -/
theorem exec_return_after_call (nnn : Addr) (h : s.sp.val < 16) :
    ∃ t, exec (.call nnn) s = .next t ∧
      exec .returnFromSubroutine t =
        .next { s with stack := s.stack.set s.sp.val (s.pc + 2), sp := s.sp, pc := s.pc + 2 } := by
  refine ⟨_, exec_call_of_lt nnn h, (exec_return_of_pos (Nat.succ_pos _)).trans ?_⟩
  simp

/-! ### Skips -/

/-- The pc after a skip: on by two instruction widths where the condition holds, else by one (40_engine_cycle.md R126 (b)). -/
theorem skipIf_pc (s : State) (p : Prop) [Decidable p] : (s.skipIf (decide p)).pc = s.pc + (if p then 4 else 2) := by
  by_cases h : p <;> simp [h]

/-- The pc after a skip on equality (R144, R146). -/
theorem skipIf_eq_pc (s : State) (a b : Byte) :
    (s.skipIf (decide (a = b))).pc = s.pc + (if a.toNat = b.toNat then 4 else 2) := by
  simp only [skipIf_pc, BitVec.toNat_inj]

/-- The pc after a skip on inequality (R145, R147). -/
theorem skipIf_ne_pc (s : State) (a b : Byte) :
    (s.skipIf (decide (a ≠ b))).pc = s.pc + (if a.toNat = b.toNat then 2 else 4) := by
  simp only [skipIf_pc, BitVec.toNat_inj, ne_eq, ite_not]

end

/-! ### The obligations of 41_control_flow.md -/

/-- Settles O38: the two instructions together leave the state as it was, but for the pc and the slot above the live entries. -/
theorem callThenReturnResumes : Obligations.CallThenReturnResumes := by
  intro nnn s h
  obtain ⟨t, hcall, hret⟩ := exec_return_after_call nnn h
  refine ⟨t, _, hcall, hret, rfl, rfl, fun k hk => ?_, sameExcept_stack_jumpTo s _ _ _⟩
  exact Vector.getElem_set_ne h k.isLt hk.ne'

/-- Settles O35: a live entry is popped into the pc; an empty stack halts. -/
theorem returnPopsAndJumps : Obligations.ReturnPopsAndJumps :=
  fun s => ⟨fun h => ⟨_, exec_return_of_pos h, rfl, rfl, rfl, sameExcept_stack_jumpTo s _ _ _⟩, exec_return_of_empty⟩

/-- Settles O36: the jump stores its target unchecked, and the check of the pc in the next cycle finds it. -/
theorem jumpSetsPc : Obligations.JumpSetsPc := by
  intro nnn s
  have hpc : (s.jumpTo (zextAddr nnn)).pc.toNat = nnn.toNat := zextAddr_toNat nnn
  refine ⟨decode_opcodeWith (.jump nnn) 0, _, rfl, hpc, sameExcept_jumpTo s _, fun hm hr hs hbad => ?_⟩
  exact ⟨_, illegalPcHaltsAtFetch.1 (s.jumpTo (zextAddr nnn)) hm hr hs (by omega), rfl, rfl, hpc⟩

/-- Settles O37: below the full depth the return address is pushed, which writes one slot; at the full depth it halts. -/
theorem callPushesAndJumps : Obligations.CallPushesAndJumps :=
  fun nnn s =>
    ⟨fun h => ⟨_, exec_call_of_lt nnn h, zextAddr_toNat nnn, rfl, Vector.getElem_set_self h,
        fun k hk => Vector.getElem_set_ne h k.isLt hk.symm, sameExcept_stack_jumpTo s _ _ _⟩,
      exec_call_of_full nnn⟩

/-- Settles O39: both are skips, on the comparison with the immediate. -/
theorem skipsOnImmediate : Obligations.SkipsOnImmediate :=
  fun x kk s => ⟨⟨_, rfl, skipIf_eq_pc s (s.getV x) kk, sameExcept_skipIf s _⟩,
    ⟨_, rfl, skipIf_ne_pc s (s.getV x) kk, sameExcept_skipIf s _⟩⟩

/-- Settles O40: both are skips, on the comparison of the two registers. -/
theorem skipsOnRegister : Obligations.SkipsOnRegister :=
  fun x y s => ⟨⟨_, rfl, skipIf_eq_pc s (s.getV x) (s.getV y), sameExcept_skipIf s _⟩,
    ⟨_, rfl, skipIf_ne_pc s (s.getV x) (s.getV y), sameExcept_skipIf s _⟩⟩

/-- Settles O41: the sum of a 12-bit address and a byte fits 16 bits, so it never wraps. -/
theorem jumpOffsetAddsV0 : Obligations.JumpOffsetAddsV0 :=
  fun nnn s => ⟨_, rfl, jumpOffset_toNat nnn s, sameExcept_jumpTo s _⟩

end Sys2Proof.Machine

/-! The frame of the register writes, and what the two kinds of write leave: a result alone, or a result with a flag (42_alu.md R160
to R173, R181). From these the obligations of 42_alu.md. -/

namespace Sys2Proof.Machine

section

variable {i : Instr} {s : State} {x : Nibble}

/-! ### Frames -/

/-- A write of registers with a draw and the advance changes nothing else (R181). -/
theorem sameExcept_registers_draws (s : State) (v : Vector Byte 16) (d : Nat) :
    SameExcept [.v, .pc, .draws] s ({ s with v := v, draws := d } : State).advance := by
  intro p hp
  cases p with
  | v | pc | draws => exact absurd (by decide) hp
  | ram => exact fun _ => rfl
  | fb => exact fun _ _ => rfl
  | stack => exact ⟨rfl, rfl⟩
  | _ => rfl

/-- A write of registers with the advance uses no draw either (R160). -/
theorem sameExcept_registers (s : State) (v : Vector Byte 16) :
    SameExcept [.v, .pc] s ({ s with v := v } : State).advance := by
  intro p hp
  by_cases hdraws : p = .draws
  · subst hdraws; rfl
  · exact sameExcept_registers_draws s v s.draws p (by simp_all)

/-! ### A result without a flag -/

/-- The destination holds the result. -/
theorem getV_setV_self (s : State) (x : Nibble) (b : Byte) : (s.setV x b).getV x = b :=
  (s.getV_setV x x b).trans (if_pos rfl)

/-- Every other register keeps its value. -/
theorem getV_setV_of_ne (s : State) (x : Nibble) (b : Byte) (r : Nibble) (hr : r ≠ x) : (s.setV x b).getV r = s.getV r :=
  (s.getV_setV x r b).trans (if_neg hr)

/-- An instruction that writes `V[x]` bit by bit writes nothing else, VF included (R164 to R166). -/
theorem exec_bitwise (op : Bool → Bool → Bool) {a c result : Byte} (h : exec i s = .next (s.setV x result).advance)
    (hbits : ∀ k, result.getLsbD k = op (a.getLsbD k) (c.getLsbD k)) :
    ∃ t, exec i s = .next t ∧ (∀ k, (t.getV x).getLsbD k = op (a.getLsbD k) (c.getLsbD k)) ∧
      (∀ r, r ≠ x → t.getV r = s.getV r) ∧ t.pc = s.pc + 2 ∧ SameExcept [.v, .pc] s t :=
  ⟨_, h, fun k => (congrArg (BitVec.getLsbD · k) (getV_setV_self s x result)).trans (hbits k), getV_setV_of_ne s x result, rfl,
    sameExcept_registers s _⟩

/-! ### A result with a flag -/

/-- The number of a flag in VF (10_state.md R22). -/
theorem flagByte_toNat (f : Bool) : (if f then 1 else 0 : Byte).toNat = f.toNat := by
  cases f <;> rfl

/-- A flag-writing instruction leaves the result in `V[x]`, also when x = F, and its flag in VF when x is not F (R172). -/
theorem exec_result_and_flag {f : Bool} {b : Byte} {result flag : Nat}
    (h : exec i s = .next (s.setFlagThenV f x b).advance) (hresult : b.toNat = result) (hflag : f.toNat = flag) :
    ∃ t, exec i s = .next t ∧ (t.getV x).toNat = result ∧ (x ≠ 0xF → (t.getV 0xF).toNat = flag) ∧
      (∀ r, r ≠ x → r ≠ 0xF → t.getV r = s.getV r) ∧ t.pc = s.pc + 2 ∧ SameExcept [.v, .pc] s t := by
  have hread : ∀ r, (s.setFlagThenV f x b).advance.getV r =
      if r = x then b else if r = 0xF then (if f then 1 else 0) else s.getV r :=
    fun r => s.getV_setFlagThenV f x r b
  refine ⟨_, h, ?_, fun hx => ?_, fun r hrx hrf => ?_, rfl, sameExcept_registers s _⟩
  · rw [hread, if_pos rfl, hresult]
  · rw [hread, if_neg hx.symm, if_pos rfl, flagByte_toNat, hflag]
  · rw [hread, if_neg hrx, if_neg hrf]

end

section

variable (a c : Byte)

/-- The outcome of a test as a number. -/
theorem toNat_decide (p : Prop) [Decidable p] : (decide p).toNat = if p then 1 else 0 := by
  by_cases hp : p <;> simp [hp]

/-- The carry as a number (R167). -/
theorem carryOut_toNat : (carryOut a c).toNat = if a.toNat + c.toNat > 255 then 1 else 0 :=
  toNat_decide _

/-- The no-borrow flag as a number (R168, R170). -/
theorem noBorrow_toNat : (noBorrow a c).toNat = if a.toNat ≥ c.toNat then 1 else 0 :=
  toNat_decide _

/-- The wrapped difference as a number (R168, R170). -/
theorem byte_sub_toNat : (a - c).toNat = (256 + a.toNat - c.toNat) % 256 := by
  have hc := c.isLt
  rw [BitVec.toNat_sub]
  omega

/-- A shift to the right by one halves (R169). -/
theorem byte_ushiftRight_one_toNat : (a >>> 1).toNat = a.toNat / 2 := by
  rw [BitVec.toNat_ushiftRight, Nat.shiftRight_eq_div_pow, pow_one]

/-- A shift to the left by one doubles and wraps (R171). -/
theorem byte_shiftLeft_one_toNat : (a <<< 1).toNat = a.toNat * 2 % 256 := by
  rw [BitVec.toNat_shiftLeft, Nat.shiftLeft_eq, pow_one]

/-- The lowest bit is the remainder of the halving (R169). -/
theorem shiftedOutRight_toNat : (shiftedOutRight a).toNat = a.toNat % 2 := by
  rw [shiftedOutRight, BitVec.getLsbD, Nat.toNat_testBit, pow_zero, Nat.div_one]

/-- The highest bit counts the 128s (R171). -/
theorem shiftedOutLeft_toNat : (shiftedOutLeft a).toNat = a.toNat / 128 := by
  have ha := a.isLt
  rw [shiftedOutLeft, BitVec.getLsbD, Nat.toNat_testBit]
  omega

end

/-! ### The obligations of 42_alu.md -/

/-- Settles O43: each writes one register, with the immediate, the wrapped sum, or the other register. -/
theorem movesAndAddImmediate : Obligations.MovesAndAddImmediate := by
  intro x y kk s
  refine ⟨⟨_, rfl, fun r => s.getV_setV x r kk, rfl, sameExcept_registers s _⟩,
    ⟨_, rfl, ?_, getV_setV_of_ne s x _, rfl, sameExcept_registers s _⟩,
    ⟨_, rfl, fun r => s.getV_setV x r _, rfl, sameExcept_registers s _⟩⟩
  exact (congrArg BitVec.toNat (getV_setV_self s x _)).trans (BitVec.toNat_add _ _)

/-- Settles O44: the bits of the three operations on bit vectors. -/
theorem logicBitwise : Obligations.LogicBitwise :=
  fun _ _ _ => ⟨exec_bitwise or rfl fun _ => BitVec.getLsbD_or, exec_bitwise and rfl fun _ => BitVec.getLsbD_and,
    exec_bitwise xor rfl fun _ => BitVec.getLsbD_xor⟩

/-- Settles O45: the encoding, and the wrapped sum with its carry. -/
theorem addWithCarryResult : Obligations.AddWithCarryResult :=
  fun x y _ => ⟨decode_opcodeWith (.addWithCarry x y) 0,
    exec_result_and_flag rfl (BitVec.toNat_add _ _) (carryOut_toNat _ _)⟩

/-- Settles O46: the wrapped difference with the no-borrow flag, the operands in the one order and in the other. -/
theorem subtractResults : Obligations.SubtractResults :=
  fun _ _ _ => ⟨exec_result_and_flag rfl (byte_sub_toNat _ _) (noBorrow_toNat _ _),
    exec_result_and_flag rfl (byte_sub_toNat _ _) (noBorrow_toNat _ _)⟩

/-- Settles O47: the half with the lowest bit, the double with the highest bit. -/
theorem shiftResults : Obligations.ShiftResults :=
  fun _ _ => ⟨exec_result_and_flag rfl (byte_ushiftRight_one_toNat _) (shiftedOutRight_toNat _),
    exec_result_and_flag rfl (byte_shiftLeft_one_toNat _) (shiftedOutLeft_toNat _)⟩

/-- Settles O48: the draw masked by kk, whose bits lie in kk, for the masks of no bit and of all bits too. -/
theorem randomIsMaskedDraw : Obligations.RandomIsMaskedDraw := by
  intro x kk s
  have hx := getV_setV_self { s with draws := s.draws + 1 } x (Config.drawByte s.draws &&& kk)
  refine ⟨_, rfl, fun r => State.getV_setV _ x r _, (congrArg (· &&& ~~~kk) hx).trans ?_, fun h0 => hx.trans ?_,
    fun hff => hx.trans ?_, rfl, rfl, sameExcept_registers_draws s _ _⟩
  · rw [BitVec.and_assoc, BitVec.and_not_self]; exact BitVec.and_zero
  · rw [h0]; exact BitVec.and_zero
  · rw [hff]; exact BitVec.and_allOnes

end Sys2Proof.Machine

/-! The frames of the pixel writes, `DRW` with its sprite inside RAM, where the bits of a sprite fall on a grid at least as
large as a sprite, and one poll of `LD Vx, K` (43_display_keys.md R191 to R198). From these the obligations of 43_display_keys.md. -/

namespace Sys2Proof.Machine

section

variable {s t : State}

/-! ### Frames -/

/-- A write of registers and of pixels with the advance changes nothing else (R192). -/
theorem sameExcept_registers_pixels (s : State) (v : Vector Byte 16) (fb : Framebuffer) :
    SameExcept [.v, .fb, .pc] s ({ s with v := v, fb := fb } : State).advance := by
  intro p hp
  cases p with
  | v | fb | pc => exact absurd (by decide) hp
  | ram => exact fun _ => rfl
  | stack => exact ⟨rfl, rfl⟩
  | _ => rfl

/-- A write of pixels with the advance writes no register either (R191). -/
theorem sameExcept_pixels (s : State) (fb : Framebuffer) :
    SameExcept [.fb, .pc] s ({ s with fb := fb } : State).advance := by
  intro p hp
  by_cases hv : p = .v
  · subst hv; exact fun _ => rfl
  · exact sameExcept_registers_pixels s s.v fb p (by simp_all)

/-! ### `CLS` and `DRW` -/

/-- In the empty framebuffer every pixel is unset (R191). -/
theorem Framebuffer.get_nil (c : Config) (a b : Nat) : Framebuffer.get c [] a b = false :=
  decide_eq_false List.not_mem_nil

/-- `DRW` with its sprite inside RAM inverts the set bits of the sprite one after another, and then writes the flag (R192). -/
theorem exec_draw_of_inRam (x y n : Nibble) (h : n.toNat = 0 ∨ s.i.toNat + n.toNat - 1 < 4096) :
    exec (.draw x y n) s =
      .next ({ s with fb := s.fb.setAll s.cfg (toggleWrites s.cfg s.fb (spriteHits s x y n)) }.setFlag
        (collided (toggleWrites s.cfg s.fb (spriteHits s x y n)))).advance := by
  rw [← s.drawWrites_eq]
  exact if_pos (decide_eq_true h)

/-- `DRW` with a row beyond RAM halts with nothing drawn (R192, 20_memory.md R66). -/
theorem exec_draw_of_outside (x y n : Nibble) (hn : 0 < n.toNat) (h : 4096 ≤ s.i.toNat + n.toNat - 1) :
    exec (.draw x y n) s = .next (s.haltedWith .outOfBounds (some (formatXYN 0xD x y n))) := by
  have hout : ¬ s.operandInRam n.toNat = true := by rw [State.operandInRam_iff, ramSize]; omega
  exact if_neg hout

/-- A flag in VF is 0 or 1 (10_state.md R22). -/
theorem flagByte_cases (f : Bool) : (if f then 1 else 0 : Byte) = 0 ∨ (if f then 1 else 0 : Byte) = 1 := by
  cases f
  · exact .inl rfl
  · exact .inr rfl

/-- A flag in VF is 1 where its test holds (10_state.md R22). -/
theorem flagByte_eq_one_iff (f : Bool) : (if f then 1 else 0 : Byte) = 1 ↔ f = true := by
  cases f <;> decide

/-- The sprite depends on I, on RAM and on the two coordinate registers alone (R192). -/
theorem spriteHits_congr {x y : Nibble} (n : Nibble) (hi : t.i = s.i) (hram : ∀ a, t.readByte a = s.readByte a)
    (hx : t.getV x = s.getV x) (hy : t.getV y = s.getV y) : spriteHits t x y n = spriteHits s x y n := by
  simp only [spriteHits, hi, hram, hx, hy]

/-! ### The bits of a sprite on a grid at least as large as a sprite -/

/-- Two offsets below the size of a dimension wrap onto different places. -/
theorem add_mod_ne_of_lt {m a b : Nat} (v : Nat) (hab : a < b) (hb : b < m) : (v + a) % m ≠ (v + b) % m := by
  intro h
  have hmod : a ≡ b [MOD m] := Nat.ModEq.add_left_cancel' v h
  exact hab.ne (hmod.eq_of_lt_of_lt (hab.trans hb) hb)

/-- On a grid of at least 8 by 15 no two set bits of a sprite wrap onto one cell: bits of one row differ in their column, bits of
two rows in their row. -/
theorem spriteHits_pairwise (c : Config) (hw : 8 ≤ c.fbW) (hh : 15 ≤ c.fbH) (s : State) (x y n : Nibble) :
    (spriteHits s x y n).Pairwise fun p q => ¬ (p.1 % c.fbW = q.1 % c.fbW ∧ p.2 % c.fbH = q.2 % c.fbH) := by
  have hn := n.isLt
  refine List.pairwise_flatMap.2 ⟨fun r _ => ?_, ?_⟩
  · refine List.pairwise_map.2 (List.Pairwise.filter _ (List.pairwise_lt_range.imp_of_mem fun _ hb hab h => ?_))
    exact add_mod_ne_of_lt _ hab ((List.mem_range.1 hb).trans_le hw) h.1
  · refine List.pairwise_lt_range.imp_of_mem fun {r r'} _ hr' hrr p hp q hq h => ?_
    obtain ⟨_, _, rfl⟩ := List.mem_map.1 hp
    obtain ⟨_, _, rfl⟩ := List.mem_map.1 hq
    have hlt : r' < n.toNat := List.mem_range.1 hr'
    exact add_mod_ne_of_lt _ hrr (by omega) h.2

/-- So a set bit's cell is hit by no bit before it, and once by the whole sprite. -/
theorem hitsOn_spriteHits {c : Config} (hw : 8 ≤ c.fbW) (hh : 15 ≤ c.fbH) {x y n : Nibble} {before after : List (Nat × Nat)}
    {p : Nat × Nat} (e : spriteHits s x y n = before ++ p :: after) :
    hitsOn c p.1 p.2 before = 0 ∧ hitsOn c p.1 p.2 (spriteHits s x y n) = 1 := by
  have hpair := spriteHits_pairwise c hw hh s x y n
  rw [e] at hpair ⊢
  obtain ⟨-, hcons, hcross⟩ := List.pairwise_append.1 hpair
  have hbefore : hitsOn c p.1 p.2 before = 0 :=
    List.countP_eq_zero.2 fun q hq h => hcross q hq p List.mem_cons_self (of_decide_eq_true h)
  have hafter : hitsOn c p.1 p.2 after = 0 :=
    List.countP_eq_zero.2 fun q hq h =>
      (List.pairwise_cons.1 hcons).1 q hq ((of_decide_eq_true h).imp Eq.symm Eq.symm)
  have hsplit : hitsOn c p.1 p.2 (before ++ p :: after) = hitsOn c p.1 p.2 before + (hitsOn c p.1 p.2 after + 1) := by
    simp [hitsOn, List.countP_append]
  exact ⟨hbefore, by rw [hsplit, hbefore, hafter]⟩

/-! ### The keypad -/

/-- A key is Released when it is not Pressed (10_state.md R31). -/
theorem ne_pressed_iff (ks : KeyState) : ks ≠ .pressed ↔ ks = .released := by
  cases ks <;> decide

/-- The key a register's low nibble names, as a number (R194). -/
theorem lowNibble_toNat (s : State) (x : Nibble) : (s.lowNibble x).toNat = (s.getV x).toNat % 16 := by
  simp [State.lowNibble]

/-- A key id keeps its number as a byte (R196). -/
theorem keyByte_toNat (k : Nibble) : (keyByte k).toNat = k.toNat := by
  have h := k.isLt
  simp only [keyByte, BitVec.truncate_eq_setWidth, BitVec.toNat_setWidth]
  omega

/-- One poll (R196, R198): with no key found Pressed it changes nothing, else it stores the id of one found Pressed. -/
theorem exec_waitKey_cases (x : Nibble) (s : State) :
    (s.pressedInScan = [] ∧ exec (.waitKey x) s = .next s) ∨
      ∃ k ∈ s.pressedInScan, ∃ d, exec (.waitKey x) s = .next ({ s with draws := d }.setV x (keyByte k)).advance := by
  rw [exec, execWaitKey]
  rcases s.pressedInScan with _ | ⟨k, _ | ⟨k', ks⟩⟩
  · exact .inl ⟨rfl, rfl⟩
  · exact .inr ⟨k, List.mem_cons_self, s.draws, rfl⟩
  · exact .inr ⟨_, pickKey_mem (Config.drawKey s.draws) k (k' :: ks), s.draws + 1, rfl⟩

end

/-! ### The obligations of 43_display_keys.md -/

/-- Settles O50: inside RAM the inversions of the sprite's bits, pixel by pixel, and their collision; outside it the halt. -/
theorem drawXorsSprite : Obligations.DrawXorsSprite := by
  refine fun x y n s => ⟨fun hc hin => ?_, exec_draw_of_outside x y n⟩
  have hread := State.getV_setFlag { s with fb := s.fb.setAll s.cfg (toggleWrites s.cfg s.fb (spriteHits s x y n)) }
    (collided (toggleWrites s.cfg s.fb (spriteHits s x y n)))
  have hflag := (hread 0xF).trans (if_pos rfl)
  refine ⟨_, exec_draw_of_inRam x y n hin, Framebuffer.get_setAll_toggleWrites s.cfg hc _ s.fb,
    fun r hr => (hread r).trans (if_neg hr), ?_, ?_, rfl, sameExcept_registers_pixels s _ _⟩
  · exact hflag ▸ flagByte_cases _
  · exact (Eq.congr_left hflag).trans ((flagByte_eq_one_iff _).trans (collided_toggleWrites s.cfg hc _ s.fb))

/-- Settles O51: the second draw inverts the same bits again, and so undoes the first. On a large grid each bit is alone on its
cell, so every bit of the first draw meets an unset pixel, and every bit of the second a lit one. -/
theorem drawTwiceRestores : Obligations.DrawTwiceRestores := by
  intro x y n s hc hx hy hin
  obtain ⟨t, ht, tpix, treg, tflag, tone, -, tsame⟩ := (drawXorsSprite x y n s).1 hc hin
  have hcfg : t.cfg = s.cfg := tsame .cfg (by decide)
  have hi : t.i = s.i := tsame .i (by decide)
  have hhits : spriteHits t x y n = spriteHits s x y n :=
    spriteHits_congr n hi (tsame .ram (by decide)) (treg x hx) (treg y hy)
  obtain ⟨u, hu, upix, -, uflag, uone, -⟩ := (drawXorsSprite x y n t).1 (hcfg ▸ hc) (hi ▸ hin)
  rw [hhits, hcfg] at upix uone
  refine ⟨t, u, ht, hu, fun a b => ?_, fun hw hh hunset => ⟨tflag.resolve_right fun h => ?_, ?_⟩⟩
  · rw [upix, tpix, Bool.xor_assoc, Bool.xor_self, Bool.xor_false]
  · obtain ⟨before, p, after, e, hlit⟩ := tone.1 h
    have hp : p ∈ spriteHits s x y n := by simp [e]
    simp [hunset p hp, (hitsOn_spriteHits hw hh e).1] at hlit
  · split_ifs with hnil
    · refine uflag.resolve_right fun h => ?_
      obtain ⟨before, p, after, e, -⟩ := uone.1 h
      simp [hnil] at e
    · obtain ⟨p, after, e⟩ := List.exists_cons_of_ne_nil hnil
      have hp : p ∈ spriteHits s x y n := by simp [e]
      obtain ⟨hbefore, honce⟩ := hitsOn_spriteHits (before := []) hw hh e
      exact uone.2 ⟨[], p, after, e, by simp [tpix, hunset p hp, hbefore, honce]⟩

/-- Settles O53: a poll that finds no key keeps the state, and one that finds some stores the id of one of them. -/
theorem waitKeyStoresPressedKey : Obligations.WaitKeyStoresPressedKey := by
  intro x s
  rcases exec_waitKey_cases x s with ⟨hnil, e⟩ | ⟨k, hk, d, e⟩
  · refine ⟨fun _ => e, fun ⟨k, hk⟩ => ?_⟩
    rw [← State.mem_pressedInScan_iff, hnil] at hk
    exact absurd hk List.not_mem_nil
  · rw [State.mem_pressedInScan_iff] at hk
    refine ⟨fun hall => absurd hk ((ne_pressed_iff _).2 (hall k)), fun _ => ⟨_, k, e, hk, fun hw => ?_, ?_,
      getV_setV_of_ne _ x _, rfl, sameExcept_registers_draws s _ d⟩⟩
    · rwa [hw, keyAfter_nil] at hk
    · exact (congrArg BitVec.toNat (getV_setV_self _ x _)).trans (keyByte_toNat k)

/-- Settles O49: no cell is lit in the empty framebuffer. -/
theorem clearDisplayUnsetsEveryPixel : Obligations.ClearDisplayUnsetsEveryPixel :=
  fun s => ⟨_, rfl, Framebuffer.get_nil s.cfg, rfl, sameExcept_pixels s []⟩

/-- Settles O52: both are skips, on the state of the key that the low nibble names. -/
theorem skipsOnKey : Obligations.SkipsOnKey := by
  intro x k s hk
  obtain rfl : k = s.lowNibble x := BitVec.eq_of_toNat_eq (hk.trans (lowNibble_toNat s x).symm)
  refine ⟨⟨_, rfl, skipIf_pc s _, sameExcept_skipIf s _⟩, ⟨_, rfl, (skipIf_pc s _).trans ?_, sameExcept_skipIf s _⟩⟩
  simp only [← ne_pressed_iff, ne_eq, ite_not]

end Sys2Proof.Machine

/-! The frame of a data write, what a memory operand may reach, and the bytes and registers a transfer leaves
(44_timers_index_memory.md R211 to R219). From these the obligations of 44_timers_index_memory.md. -/

namespace Sys2Proof.Machine

section

variable {s t : State}

/-! ### Frames -/

/-- A frame narrows by the parts that agree after all. -/
theorem SameExcept.of_agree {wide narrow : List Part} (h : SameExcept wide s t)
    (hagree : ∀ p ∈ wide, p ∉ narrow → Agree s t p) : SameExcept narrow s t := by
  intro p hp
  by_cases hw : p ∈ wide
  · exact hagree p hw hp
  · exact h p hw

/-- A write of I, of RAM and of the timers with the advance changes nothing else (R212 to R218). -/
theorem sameExcept_index_ram_timers (s : State) (i : Word) (ram : Memory) (dt st : Byte) :
    SameExcept [.i, .ram, .dt, .st, .pc] s ({ s with i := i, ram := ram, dt := dt, st := st } : State).advance := by
  intro p hp
  cases p with
  | i | ram | dt | st | pc => exact absurd (by decide) hp
  | v => exact fun _ => rfl
  | fb => exact fun _ _ => rfl
  | stack => exact ⟨rfl, rfl⟩
  | _ => rfl

/-- A write of DT with the advance changes nothing else (R212). -/
theorem sameExcept_delay (s : State) (b : Byte) : SameExcept [.dt, .pc] s ({ s with dt := b } : State).advance :=
  (sameExcept_index_ram_timers s s.i s.ram b s.st).of_agree (by simp [Agree, State.readByte])

/-- A write of ST with the advance changes nothing else (R213). -/
theorem sameExcept_sound (s : State) (b : Byte) : SameExcept [.st, .pc] s ({ s with st := b } : State).advance :=
  (sameExcept_index_ram_timers s s.i s.ram s.dt b).of_agree (by simp [Agree, State.readByte])

/-- A write of I with the advance changes nothing else, no flag (R214 to R216). -/
theorem sameExcept_setI (s : State) (w : Word) : SameExcept [.i, .pc] s (s.setI w).advance :=
  (sameExcept_index_ram_timers s w s.ram s.dt s.st).of_agree (by simp [Agree, State.readByte])

/-- A store with the advance changes nothing but RAM, not I either (R217, R218). -/
theorem sameExcept_writeBytes (s : State) (a : Nat) (bs : List Byte) :
    SameExcept [.ram, .pc] s (s.writeBytes a bs).advance :=
  (sameExcept_index_ram_timers s s.i (s.ram.writeBytes (resetByte s.cfg) a bs) s.dt s.st).of_agree (by simp [Agree])

/-! ### The address register -/

/-- A register as a 16-bit addend keeps its number (R215). -/
theorem getV16_toNat (s : State) (x : Nibble) : (s.getV16 x).toNat = (s.getV x).toNat := by
  have h := (s.getV x).isLt
  simp only [State.getV16, BitVec.truncate_eq_setWidth, BitVec.toNat_setWidth]
  omega

/-- With an accepted configuration the glyphs lie below the program area, so a glyph's address does not wrap (R216, D17). -/
theorem glyphAddress_toNat {c : Config} (hc : c.wf = true) (d : Nibble) :
    (glyphAddress c d).toNat = c.fontBase + 5 * d.toNat := by
  have hd := d.isLt
  simp only [Config.wf, Bool.and_eq_true, decide_eq_true_eq, progBase, fontLength, glyphBytes] at hc
  obtain ⟨-, hbase⟩ := hc
  rw [glyphAddress, glyphBytes, BitVec.toNat_ofNat]
  omega

/-! ### The memory operand at I -/

/-- The bounds check of the n + 1 bytes from I looks at the last of them (20_memory.md R66). -/
theorem operandInRam_succ_iff (s : State) (n : Nat) : s.operandInRam (n + 1) = true ↔ s.i.toNat + n < 4096 := by
  rw [State.operandInRam_iff, ramSize]
  omega

/-- The bounds check of the n + 1 bytes from I fails when the last of them lies beyond RAM (20_memory.md R66). -/
theorem not_operandInRam_succ (n : Nat) (h : 4096 ≤ s.i.toNat + n) : ¬ s.operandInRam (n + 1) = true :=
  fun hin => absurd ((operandInRam_succ_iff s n).1 hin) h.not_gt

/-- A byte that was stored (20_memory.md R63). -/
theorem readByte_writeBytes_inside (hm : Memory.wf (resetByte s.cfg) s.ram) (a k : Nat) (bs : List Byte)
    (hk : k < bs.length) : (s.writeBytes a bs).readByte (a + k) = bs.getD k 0 := by
  rw [s.readByte_writeBytes hm.1, if_pos (by omega), Nat.add_sub_cancel_left]

/-- A byte no store wrote (20_memory.md R63). -/
theorem readByte_writeBytes_outside (hm : Memory.wf (resetByte s.cfg) s.ram) (a b : Nat) (bs : List Byte)
    (hb : b < a ∨ a + bs.length ≤ b) : (s.writeBytes a bs).readByte b = s.readByte b := by
  rw [s.readByte_writeBytes hm.1, if_neg (by omega)]

/-- The decimal digits of a byte as numbers: hundreds, tens, ones (R217). -/
theorem bcdDigits_toNat (b : Byte) :
    ((bcdDigits b).getD 0 0).toNat = b.toNat / 100 ∧ ((bcdDigits b).getD 1 0).toNat = b.toNat / 10 % 10 ∧
      ((bcdDigits b).getD 2 0).toNat = b.toNat % 10 := by
  have hb := b.isLt
  refine ⟨(BitVec.toNat_ofNat _ _).trans ?_, (BitVec.toNat_ofNat _ _).trans ?_, (BitVec.toNat_ofNat _ _).trans ?_⟩ <;> omega

/-- The registers after `LD Vx, [I]`, one by one (R219). -/
theorem getV_loadRegs (s : State) (x r : Nibble) :
    ({ s with v := loadRegsFrom s (x.toNat + 1) } : State).getV r =
      if r.toNat ≤ x.toNat then s.readByte (s.i.toNat + r.toNat) else s.getV r := by
  simp only [← Nat.lt_succ_iff]
  exact getElem_loadRegsFrom s (x.toNat + 1) x.isLt r.toNat r.isLt

end

/-! ### The obligations of 44_timers_index_memory.md -/

/-- Settles O54: each writes one register or one timer. -/
theorem timerReadsAndWrites : Obligations.TimerReadsAndWrites :=
  fun x s => ⟨⟨_, rfl, fun r => s.getV_setV x r s.dt, rfl, sameExcept_registers s _⟩,
    ⟨_, rfl, rfl, rfl, sameExcept_delay s _⟩, ⟨_, rfl, rfl, rfl, sameExcept_sound s _⟩⟩

/-- Settles O55: each writes I, with the address, the wrapped sum, or the address of the low nibble's glyph. -/
theorem indexWrites : Obligations.IndexWrites := by
  intro x nnn s
  refine ⟨⟨_, rfl, zextAddr_toNat nnn, rfl, sameExcept_setI s _⟩, ⟨_, rfl, ?_, rfl, sameExcept_setI s _⟩,
    ⟨_, rfl, fun hc => ?_, rfl, sameExcept_setI s _⟩⟩
  · exact (BitVec.toNat_add s.i (s.getV16 x)).trans (by rw [getV16_toNat])
  · exact (glyphAddress_toNat hc (s.lowNibble x)).trans (by rw [lowNibble_toNat])

/-- Settles O56: inside RAM the three digits are the bytes stored; outside it the halt. -/
theorem storeBcdDigits : Obligations.StoreBcdDigits := by
  refine fun x s => ⟨fun hm hin => ?_, fun hout => if_neg (not_operandInRam_succ 2 hout)⟩
  obtain ⟨hundreds, tens, ones⟩ := bcdDigits_toNat (s.getV x)
  have hread := fun k (hk : k < 3) => readByte_writeBytes_inside hm s.i.toNat k (bcdDigits (s.getV x)) hk
  refine ⟨_, if_pos ((operandInRam_succ_iff s 2).2 hin), ?_, ?_, ?_, fun a ha => ?_, rfl, sameExcept_writeBytes s _ _⟩
  · exact (congrArg BitVec.toNat (hread 0 (by decide))).trans hundreds
  · exact (congrArg BitVec.toNat (hread 1 (by decide))).trans tens
  · exact (congrArg BitVec.toNat (hread 2 (by decide))).trans ones
  · exact readByte_writeBytes_outside hm _ a _ ha

/-- Settles O57: inside RAM the registers are the bytes stored; outside it the halt. -/
theorem storeRegsCopies : Obligations.StoreRegsCopies := by
  refine fun x s => ⟨fun hm hin => ?_, fun hout => if_neg (not_operandInRam_succ _ hout)⟩
  refine ⟨_, exec_storeRegs_of_inRam s x hin, fun r hr => ?_, fun a ha => ?_, rfl, sameExcept_writeBytes s _ _⟩
  · exact (readByte_storeRegs s hm x r.toNat hr).trans (by rw [BitVec.ofNat_toNat, BitVec.setWidth_eq])
  · exact readByte_writeBytes_outside hm _ a _ (by rw [State.length_regsUpTo]; omega)

/-- Settles O58: inside RAM the bytes are the registers loaded; outside it the halt. -/
theorem loadRegsCopies : Obligations.LoadRegsCopies :=
  fun x s => ⟨fun hin => ⟨_, if_pos ((operandInRam_succ_iff s _).2 hin), getV_loadRegs s x, rfl, sameExcept_registers s _⟩,
    fun hout => if_neg (not_operandInRam_succ _ hout)⟩

/-- Settles O59: the load reads from the same I the bytes that the store left there. -/
theorem storeThenLoadRestoresRegs : Obligations.StoreThenLoadRestoresRegs := by
  intro x s s' hm hin
  obtain ⟨t, ht, hstored, -, -, tsame⟩ := (storeRegsCopies x s).1 hm hin
  refine ⟨t, ht, fun hi hram => ?_⟩
  have hi' : s'.i = s.i := hi.trans (tsame .i (by decide))
  obtain ⟨u, hu, hloaded, -⟩ := (loadRegsCopies x s').1 (hi' ▸ hin)
  refine ⟨u, hu, fun r => (hloaded r).trans ?_⟩
  split_ifs with hr
  · rw [hi', hram, hstored r hr]
  · rfl

end Sys2Proof.Machine

/-! Which instructions halt and where, the engine's decode miss, the turns of the other agents one by one, what a step does to the
timers and to the keypad, and that no outcome depends on the renderer's record (60_exceptions.md R231 to R268). From these the
obligations of 60_exceptions.md. -/

namespace Sys2Proof

/-- The reason an instruction gives when it halts (60_exceptions.md R232 to R234); `State.haltsOn` says when it does. -/
def Instr.haltReason : Instr → Machine.HaltReason
  | .returnFromSubroutine => .stackUnderflow
  | .call _ => .stackOverflow
  | _ => .outOfBounds

/-- An opcode of a row without ignored digits is the encoding of what it decodes to (30_encoding.md R98, R106). -/
theorem encode_eq_of_decode {op : Word} {i : Instr} (h : decode op = .valid i) (hi : i.row.ignored = 0) : i.encode = op := by
  rw [encodeOfDecode op i h, hi]
  exact BitVec.and_allOnes

end Sys2Proof

namespace Sys2Proof.Machine

/-- When an instruction halts (60_exceptions.md R232 to R234); `exec_halts_or_runs` says that it does exactly then. -/
def State.haltsOn (s : State) : Instr → Prop
  | .returnFromSubroutine => s.sp.val = 0
  | .call _ => s.sp.val = 16
  | .draw _ _ n => 0 < n.toNat ∧ 4096 ≤ s.i.toNat + n.toNat - 1
  | .storeBcd _ => 4096 ≤ s.i.toNat + 2
  | .storeRegs x | .loadRegs x => 4096 ≤ s.i.toNat + x.toNat
  | _ => False

/-- The state with another record of what the renderer has seen. -/
def State.withSeen (s : State) (l : List PixelSeen) : State := { s with seen := l }

section

variable {s t : State} {i : Instr} {rest : List Turn}

/-! ### The halts of an instruction -/

/-- An instruction halts with its reason in its condition, and else leaves RUN alone (R231 to R234). -/
theorem exec_halts_or_runs (h : exec i s = .next t) :
    (s.haltsOn i ∧ t = s.haltedWith i.haltReason (some i.encode)) ∨ (¬ s.haltsOn i ∧ t.run = s.run) := by
  cases i with
  | returnFromSubroutine =>
    rcases Nat.eq_zero_or_pos s.sp.val with h0 | hpos
    · rw [exec_return_of_empty h0] at h; cases h; exact .inl ⟨h0, rfl⟩
    · rw [exec_return_of_pos hpos] at h; cases h; exact .inr ⟨hpos.ne', rfl⟩
  | call nnn =>
    rcases (Nat.lt_succ_iff.1 s.sp.isLt).lt_or_eq with hlt | hfull
    · rw [exec_call_of_lt nnn hlt] at h; cases h; exact .inr ⟨hlt.ne, rfl⟩
    · rw [exec_call_of_full nnn hfull] at h; cases h; exact .inl ⟨hfull, rfl⟩
  | draw x y n =>
    by_cases hout : 0 < n.toNat ∧ 4096 ≤ s.i.toNat + n.toNat - 1
    · rw [exec_draw_of_outside x y n hout.1 hout.2] at h; cases h; exact .inl ⟨hout, rfl⟩
    · rw [exec_draw_of_inRam x y n (by omega)] at h; cases h; exact .inr ⟨hout, rfl⟩
  | storeBcd x =>
    rcases lt_or_ge (s.i.toNat + 2) 4096 with hin | hout
    · cases (if_pos ((operandInRam_succ_iff s 2).2 hin)).symm.trans h; exact .inr ⟨hin.not_ge, rfl⟩
    · cases (if_neg (not_operandInRam_succ 2 hout)).symm.trans h; exact .inl ⟨hout, rfl⟩
  | storeRegs x | loadRegs x =>
    rcases lt_or_ge (s.i.toNat + x.toNat) 4096 with hin | hout
    · cases (if_pos ((operandInRam_succ_iff s _).2 hin)).symm.trans h; exact .inr ⟨hin.not_ge, rfl⟩
    · cases (if_neg (not_operandInRam_succ _ hout)).symm.trans h; exact .inl ⟨hout, rfl⟩
  | waitKey x =>
    rcases exec_waitKey_cases x s with ⟨-, e⟩ | ⟨_, -, _, e⟩ <;> cases e.symm.trans h <;> exact .inr ⟨id, rfl⟩
  | _ => cases h; exact .inr ⟨id, rfl⟩

/-- From a running state an instruction halts exactly in its condition. -/
theorem exec_halted_iff (hr : s.run = .running) (h : exec i s = .next t) : t.run = .halted ↔ s.haltsOn i := by
  rcases exec_halts_or_runs h with ⟨hon, rfl⟩ | ⟨hoff, hrun⟩
  · exact iff_of_true rfl hon
  · exact iff_of_false (by simp [hrun, hr]) hoff

/-- The instructions that halt, each with its condition. -/
theorem haltsOn_iff (s : State) (i : Instr) :
    s.haltsOn i ↔
      (i = .returnFromSubroutine ∧ s.sp.val = 0) ∨
      ((∃ nnn, i = .call nnn) ∧ s.sp.val = 16) ∨
      (∃ x y n, i = .draw x y n ∧ 0 < n.toNat ∧ 4096 ≤ s.i.toNat + n.toNat - 1) ∨
      (∃ x, i = .storeBcd x ∧ 4096 ≤ s.i.toNat + 2) ∨
      (∃ x, i = .storeRegs x ∧ 4096 ≤ s.i.toNat + x.toNat) ∨
      (∃ x, i = .loadRegs x ∧ 4096 ≤ s.i.toNat + x.toNat) := by
  cases i <;> simp [State.haltsOn]

/-- An instruction that halts has no ignored digit (30_encoding.md R98, R106). -/
theorem row_ignored_of_haltsOn (h : s.haltsOn i) : i.row.ignored = 0 := by
  cases i with
  | skipEqReg | skipNeqReg | shiftRight | shiftLeft => exact h.elim
  | _ => rfl

/-- An instruction that is not of the stack halts for an address out of range (R234). -/
theorem haltReason_of_ne (hr : i ≠ .returnFromSubroutine) (hc : ∀ nnn, i ≠ .call nnn) : i.haltReason = .outOfBounds := by
  cases i with
  | returnFromSubroutine => exact absurd rfl hr
  | call nnn => exact absurd rfl (hc nnn)
  | _ => rfl

/-! ### The decode miss -/

/-- A cycle that fetches an invalid opcode makes no pixel write. -/
theorem cycleWrites_of_invalid (hf : s.canFetch) {op : Word} (hd : decode s.fetch = .invalidInstruction op) :
    s.cycleWrites = [] := by
  obtain ⟨hrun, hstop, hl⟩ := hf
  simp [State.cycleWrites, State.cycle, hrun, hstop, hl, hd]

/-- A turn in the list whose cycle fetches an invalid opcode: the miss, and then the landing (R235, 20_memory.md R73). -/
theorem step_turn_of_invalid {op : Word} {scan : List ScanWrite} {reads : List MidRead}
    (hturn : s.turns = .engine scan reads :: rest) (hf : s.canFetch) (hd : decode s.fetch = .invalidInstruction op) :
    ∃ u, step s = .next u ∧ Landed s scan reads [] ((s.onTurn scan rest).decodeMiss op) u := by
  have hw : (s.onTurn scan rest).cycleWrites = [] := cycleWrites_of_invalid (s := s.onTurn scan rest) hf hd
  exact hw ▸ step_turn_landed s _ scan reads rest hturn (engineCycle_of_invalid (s := s.onTurn scan rest) hf op hd)

/-- Under Fatal a decode miss halts (R235). -/
theorem decodeMiss_of_fatal (op : Word) (h : s.cfg.invalidPolicy = .fatal) :
    s.decodeMiss op = s.haltedWith .decodeMiss (some op) := by
  obtain ⟨-, e⟩ | ⟨hskip, -⟩ := s.decodeMiss_cases op
  · exact e
  · exact absurd (h.symm.trans hskip) nofun

/-- Under Skip a decode miss is logged and the pc advances (R235). -/
theorem decodeMiss_of_skip (op : Word) (h : s.cfg.invalidPolicy = .skip) :
    s.decodeMiss op = { s with log := s.log ++ [{ opcode := op, pc := s.pc }], pc := s.pc + 2 } := by
  obtain ⟨hfatal, -⟩ | ⟨-, e⟩ := s.decodeMiss_cases op
  · exact absurd (h.symm.trans hfatal) nofun
  · exact e

/-! ### Ticks -/

/-- A tick as the rule has it: down by one above zero, no effect at zero (R251). -/
theorem tick_eq (b : Byte) : tick b = if 0 < b.toNat then b - 1 else b := by
  unfold tick
  by_cases hb : b = 0
  · subst hb; rfl
  · rw [if_neg hb, if_pos (Nat.pos_of_ne_zero fun e => hb (BitVec.eq_of_toNat_eq e))]

/-- A tick never raises a counter, whether the timers have stopped or not (R251, R256). -/
theorem ticked_toNat_le (stopped : Bool) (b : Byte) : (if stopped then b else tick b).toNat ≤ b.toNat := by
  cases stopped
  · exact (tick_toNat b).trans_le (Nat.sub_le _ _)
  · exact le_rfl

/-- A number of ticks is the truncated subtraction of that number (R257). -/
theorem iterate_tick_toNat (k : Nat) (b : Byte) : (tick^[k] b).toNat = b.toNat - k := by
  induction k generalizing b with
  | zero => rfl
  | succ k ih => rw [Function.iterate_succ_apply, ih, tick_toNat]; omega

/-! ### The turns of the other agents -/

/-- A turn of the delay-tick agent (R251, R256). -/
theorem step_delayTick (h : s.turns = .delayTick :: rest) :
    step s = .next { s with turns := rest, dt := if s.timersStopped then s.dt else tick s.dt } := by
  rw [step, h]; exact congrArg _ (State.tickDelay_eq _)

/-- A turn of the sound-tick agent (R251, R256). -/
theorem step_soundTick (h : s.turns = .soundTick :: rest) :
    step s = .next { s with turns := rest, st := if s.timersStopped then s.st else tick s.st } := by
  rw [step, h]; exact congrArg _ (State.tickSound_eq _)

/-- A turn of the input source (R260, R266). -/
theorem step_setKey {k : Nibble} {ks : KeyState} (h : s.turns = .setKey k ks :: rest) :
    step s = .next { s with turns := rest, key := setKeyAt s.key k ks } := by
  rw [step, h]; rfl

/-- A turn of the renderer (R261, R265). -/
theorem step_getPixel {x y : Nat} (h : s.turns = .getPixel x y :: rest) :
    step s = .next { s with turns := rest, seen := s.seen ++ [{ x := x, y := y, lit := s.getPixel x y }] } := by
  rw [step, h]; rfl

/-- A turn of the host (R267). -/
theorem step_raiseStop (h : s.turns = .raiseStop :: rest) :
    step s = .next { s with turns := rest, stopReq := true } := by
  rw [step, h]; rfl

/-- A turn of another agent takes itself off the list and raises no timer; the input source alone writes the keypad, the host alone
the stop request, and the rest of what may change is the renderer's record (R268). -/
theorem step_agent {a : Turn} (ht : s.turns = a :: rest) (ha : ∀ scan reads, a ≠ .engine scan reads) (h : step s = .next t) :
    ∃ dt st key stop seen,
      t = { s with turns := rest, dt := dt, st := st, key := key, stopReq := stop, seen := seen } ∧
      dt.toNat ≤ s.dt.toNat ∧ st.toNat ≤ s.st.toNat ∧
      ((∀ k ks, a ≠ .setKey k ks) → key = s.key) ∧ (a ≠ .raiseStop → stop = s.stopReq) := by
  cases a with
  | engine scan reads => exact absurd rfl (ha scan reads)
  | delayTick =>
    cases (step_delayTick ht).symm.trans h
    exact ⟨_, _, _, _, _, rfl, ticked_toNat_le _ _, le_rfl, fun _ => rfl, fun _ => rfl⟩
  | soundTick =>
    cases (step_soundTick ht).symm.trans h
    exact ⟨_, _, _, _, _, rfl, le_rfl, ticked_toNat_le _ _, fun _ => rfl, fun _ => rfl⟩
  | setKey k ks =>
    cases (step_setKey ht).symm.trans h
    exact ⟨_, _, _, _, _, rfl, le_rfl, le_rfl, fun hne => absurd rfl (hne k ks), fun _ => rfl⟩
  | getPixel =>
    cases (step_getPixel ht).symm.trans h
    exact ⟨_, _, _, _, _, rfl, le_rfl, le_rfl, fun _ => rfl, fun _ => rfl⟩
  | raiseStop =>
    cases (step_raiseStop ht).symm.trans h
    exact ⟨_, _, _, _, _, rfl, le_rfl, le_rfl, fun _ => rfl, fun hne => absurd rfl hne⟩

/-- Who moves in a step (R268): the engine, with the key writes of its scan given by its turn or already pending, or the agent
whose turn heads the list. -/
theorem step_by_mover (h : step s = .next t) :
    (s.engineNext ∧ ∃ scan reads rest, engineTurn (s.onTurn scan rest) reads = .next t ∧
      (scan = s.scanWrites ∨ s.turns = .engine scan reads :: rest)) ∨
    ∃ a rest, s.turns = a :: rest ∧ ∀ scan reads, a ≠ .engine scan reads := by
  cases hturns : s.turns with
  | nil =>
    exact .inl ⟨.inl hturns, s.scanWrites, [], s.turns, (step_of_turns_eq_nil hturns).symm.trans h, .inl rfl⟩
  | cons a rest =>
    cases a with
    | engine scan reads =>
      exact .inl ⟨.inr ⟨scan, reads, rest, hturns⟩, scan, reads, rest,
        (step_turn s scan reads rest hturns).symm.trans h, .inr rfl⟩
    | _ => exact .inr ⟨_, rest, rfl, nofun⟩

/-- A change of what the other agents may write changes nothing else (R242, R268). -/
theorem sameExcept_agents (s : State) (dt st : Byte) (key : Vector KeyState 16) (stop : Bool) (turns : List Turn)
    (seen : List PixelSeen) :
    SameExcept [.dt, .st, .key, .stopReq, .turns, .seen] s
      { s with turns := turns, dt := dt, st := st, key := key, stopReq := stop, seen := seen } := by
  intro p hp
  cases p with
  | dt | st | key | stopReq | turns | seen => exact absurd (by decide) hp
  | v | ram => exact fun _ => rfl
  | fb => exact fun _ _ => rfl
  | stack => exact ⟨rfl, rfl⟩
  | _ => rfl

/-! ### A run of ticks -/

/-- A run over ticks of both kinds, in any order, while the timers have not stopped: each counter is ticked as often as its own
agent moves, and nothing else changes but whose turn it is (R251). -/
theorem run_ticks (ticks : List Turn) (hticks : ∀ a ∈ ticks, a = .delayTick ∨ a = .soundTick)
    (hs : s.timersStopped = false) (h : s.turns = ticks ++ rest) :
    Sys2Proof.core.run ticks.length s =
      .next { s with
        turns := rest
        dt := tick^[ticks.count .delayTick] s.dt
        st := tick^[ticks.count .soundTick] s.st } := by
  induction ticks generalizing s with
  | nil => obtain rfl : s.turns = rest := h; rfl
  | cons a ticks ih =>
    obtain ⟨ha, htail⟩ := List.forall_mem_cons.1 hticks
    rcases ha with rfl | rfl
    · have hstep : step s = .next { s with turns := ticks ++ rest, dt := tick s.dt } := by
        rw [step_delayTick h, hs]; rfl
      refine (run_succ s _ _ hstep).trans ((ih (s := { s with turns := ticks ++ rest, dt := tick s.dt }) htail hs rfl).trans ?_)
      simp
    · have hstep : step s = .next { s with turns := ticks ++ rest, st := tick s.st } := by
        rw [step_soundTick h, hs]; rfl
      refine (run_succ s _ _ hstep).trans ((ih (s := { s with turns := ticks ++ rest, st := tick s.st }) htail hs rfl).trans ?_)
      simp

/-! ### What an engine's turn does to the timers and to the keypad -/

/-- A cycle writes a timer only by the instruction it fetched for that (10_state.md R28, R29). -/
theorem engineCycle_timers (h : engineCycle s = .next t) :
    (t.dt = s.dt ∨ s.canFetch ∧ ∃ x, decode s.fetch = .valid (.setDelay x) ∧ t.dt = s.getV x) ∧
    (t.st = s.st ∨ s.canFetch ∧ ∃ x, decode s.fetch = .valid (.setSound x) ∧ t.st = s.getV x) := by
  rcases s.cycle_cases with ⟨-, e⟩ | ⟨-, -, e⟩ | ⟨-, -, -, e⟩ | ⟨i, hf, hd, -⟩ | ⟨op, hf, hd, -⟩
  · simp only [engineCycle, e] at h; cases h
  · simp only [engineCycle, e] at h; cases h; exact ⟨.inl rfl, .inl rfl⟩
  · simp only [engineCycle, e] at h; cases h; exact ⟨.inl rfl, .inl rfl⟩
  · rw [engineCycle_of_valid hf hd] at h
    refine (exec_timers s t i h).imp (.imp_right ?_) (.imp_right ?_) <;>
    · rintro ⟨x, rfl, hx⟩
      exact ⟨hf, x, hd, hx⟩
  · rw [engineCycle_of_invalid hf op hd] at h
    cases h
    rcases s.decodeMiss_cases op with ⟨-, e⟩ | ⟨-, e⟩ <;> rw [e] <;> exact ⟨.inl rfl, .inl rfl⟩

/-- The keypad after an engine's turn holds the key writes of its scan and no other (R260). -/
theorem engineTurn_key (reads : List MidRead) (h : engineTurn s reads = .next t) :
    t.key = keypadAtRead s.scanWrites s.key 15 := by
  obtain ⟨u, hu, rfl⟩ := engineTurn_next s t reads h
  obtain ⟨-, hkey, hscan, -⟩ := engineCycle_keeps s u hu
  simp only [State.landAgents_writes, hkey, hscan]

/-! ### The renderer's record -/

/-- A bulk load does not read the renderer's record. -/
theorem loadRegsFrom_withSeen (s : State) (l : List PixelSeen) (n : Nat) :
    loadRegsFrom (s.withSeen l) n = loadRegsFrom s n := by
  induction n with
  | zero => rfl
  | succ n ih => rw [loadRegsFrom, loadRegsFrom, ih]; rfl

/-- An instruction carries the renderer's record along and reads it nowhere (R265). -/
theorem exec_withSeen (i : Instr) (s : State) (l : List PixelSeen) :
    exec i (s.withSeen l) = onNext (exec i s) (State.withSeen · l) := by
  cases i with
  | returnFromSubroutine =>
    rcases Nat.eq_zero_or_pos s.sp.val with h0 | hpos
    · rw [exec_return_of_empty h0, exec_return_of_empty (s := s.withSeen l) h0]; rfl
    · rw [exec_return_of_pos hpos, exec_return_of_pos (s := s.withSeen l) hpos]; rfl
  | call nnn =>
    rcases (Nat.lt_succ_iff.1 s.sp.isLt).lt_or_eq with hlt | hfull
    · rw [exec_call_of_lt nnn hlt, exec_call_of_lt (s := s.withSeen l) nnn hlt]; rfl
    · rw [exec_call_of_full nnn hfull, exec_call_of_full (s := s.withSeen l) nnn hfull]; rfl
  | draw | storeBcd | storeRegs | loadRegs =>
    simp only [exec, execDraw, execStoreBcd, execStoreRegs, execLoadRegs, loadRegsFrom_withSeen,
      apply_ite (onNext · (State.withSeen · l))]
    rfl
  | waitKey x =>
    have hpressed : (s.withSeen l).pressedInScan = s.pressedInScan := rfl
    rw [exec, exec, execWaitKey, execWaitKey, hpressed]
    rcases s.pressedInScan with _ | ⟨k, _ | ⟨k', ks⟩⟩ <;> rfl
  | _ => rfl

/-- A cycle carries the renderer's record along and reads it nowhere (R265). -/
theorem engineCycle_withSeen (s : State) (l : List PixelSeen) :
    engineCycle (s.withSeen l) = onNext (engineCycle s) (State.withSeen · l) := by
  have hcycle : (s.withSeen l).cycle = s.cycle := rfl
  have hpolicy : (s.withSeen l).cfg.invalidPolicy = s.cfg.invalidPolicy := rfl
  rw [engineCycle, engineCycle, hcycle]
  cases s.cycle with
  | run i => exact exec_withSeen i s l
  | miss op => simp only [State.decodeMiss, hpolicy]; cases s.cfg.invalidPolicy <;> rfl
  | _ => rfl

/-- An engine's turn extends the renderer's record and reads it nowhere (R265). -/
theorem engineTurn_withSeen (s : State) (l : List PixelSeen) (reads : List MidRead) :
    onNext (engineTurn (s.withSeen l) reads) (State.withSeen · []) = onNext (engineTurn s reads) (State.withSeen · []) := by
  rw [engineTurn, engineTurn, engineCycle_withSeen]
  cases engineCycle s <;> rfl

/-- A step extends the renderer's record and reads it nowhere (R265). -/
theorem step_withSeen (s : State) (l : List PixelSeen) :
    onNext (step (s.withSeen l)) (State.withSeen · []) = onNext (step s) (State.withSeen · []) := by
  have hkept : (s.withSeen l).turns = s.turns := rfl
  cases hturns : s.turns with
  | nil =>
    rw [step_of_turns_eq_nil hturns, step_of_turns_eq_nil (hkept.trans hturns)]
    exact engineTurn_withSeen s l []
  | cons a rest =>
    cases a with
    | engine scan reads =>
      rw [step_turn s scan reads rest hturns, step_turn _ scan reads rest (hkept.trans hturns)]
      exact engineTurn_withSeen (s.onTurn scan rest) l reads
    | delayTick | soundTick | setKey | getPixel | raiseStop =>
      simp only [step, hkept, hturns, State.tickDelay_eq, State.tickSound_eq]
      rfl

/-! ### The renderer's read -/

/-- A wrapped coordinate names the pixel of the coordinate (00_scope.md R12). -/
theorem getPixel_mod (s : State) (x y : Nat) : s.getPixel (x % s.cfg.fbW) (y % s.cfg.fbH) = s.getPixel x y := by
  have hcell : pixelCell s.cfg (x % s.cfg.fbW) (y % s.cfg.fbH) = pixelCell s.cfg x y := by
    simp only [pixelCell, Nat.mod_mod]
  rw [State.getPixel_eq, Framebuffer.get, hcell]
  rfl

end

/-! ### The obligations of 60_exceptions.md -/

/-- Settles O17: the six conditions, and DIAG from the halted state. -/
theorem instructionHaltsExactly : Obligations.InstructionHaltsExactly := by
  intro s t i hr h
  refine ⟨(exec_halted_iff hr h).trans (haltsOn_iff s i), fun ht => ?_⟩
  rcases exec_halts_or_runs h with ⟨hon, rfl⟩ | ⟨hoff, -⟩
  · exact ⟨rfl, rfl, rfl, fun hd => encode_eq_of_decode hd (row_ignored_of_haltsOn hon), fun hi => by rw [hi]; rfl,
      fun nnn hi => by rw [hi]; rfl, haltReason_of_ne⟩
  · exact absurd ((exec_halted_iff hr h).1 ht) hoff

/-- Settles O28: a run over ticks of one kind, each of which subtracts one. -/
theorem ticksCountDownToZero : Obligations.TicksCountDownToZero := by
  intro k s hs
  refine ⟨fun h => ?_, fun h => ?_⟩
  · have hrun := run_ticks (rest := []) (List.replicate k .delayTick) (by simp) hs (by rw [h, List.append_nil])
    rw [List.length_replicate, List.count_replicate_self, List.count_eq_zero.2 (by simp)] at hrun
    exact ⟨_, hrun, iterate_tick_toNat k s.dt, (sameExcept_agents s _ _ s.key s.stopReq _ s.seen).of_agree (by simp [Agree])⟩
  · have hrun := run_ticks (rest := []) (List.replicate k .soundTick) (by simp) hs (by rw [h, List.append_nil])
    rw [List.length_replicate, List.count_replicate_self, List.count_eq_zero.2 (by simp)] at hrun
    exact ⟨_, hrun, iterate_tick_toNat k s.st, (sameExcept_agents s _ _ s.key s.stopReq _ s.seen).of_agree (by simp [Agree])⟩

/-- Settles O29: an agent's turn raises no timer, and a cycle writes one only by the instruction it fetched for that. -/
theorem timersRiseOnlyByWrite : Obligations.TimersRiseOnlyByWrite := by
  intro s t h
  rcases step_by_mover h with ⟨hnext, scan, reads, rest, hturn, -⟩ | ⟨a, rest, hturns, ha⟩
  · obtain ⟨u, hu, rfl⟩ := engineTurn_next _ t reads hturn
    obtain ⟨hdt, hst⟩ := engineCycle_timers hu
    exact ⟨fun hlt => ⟨hnext, hdt.resolve_left fun e => hlt.ne (congrArg _ e.symm)⟩,
      fun hlt => ⟨hnext, hst.resolve_left fun e => hlt.ne (congrArg _ e.symm)⟩⟩
  · obtain ⟨_, _, _, _, _, rfl, hdt, hst, -⟩ := step_agent hturns ha h
    exact ⟨fun hlt => absurd hlt hdt.not_gt, fun hlt => absurd hlt hst.not_gt⟩

/-- Settles O30: the input source's step writes one slot; of the other turns the engine's alone can write the keypad, by the key
writes of its scan, of which there are none. -/
theorem keysChangeOnlyByInputSource : Obligations.KeysChangeOnlyByInputSource := by
  refine ⟨fun s k ks rest hturns => ⟨_, step_setKey hturns, fun j => ?_, rfl, ?_⟩, fun s t hscan hkey hengine h => ?_⟩
  · simp only [keyAt_setKeyAt, eq_comm]
  · exact (sameExcept_agents s s.dt s.st _ s.stopReq rest s.seen).of_agree (by simp [Agree])
  · rcases step_by_mover h with ⟨-, scan, reads, rest, hturn, hfrom⟩ | ⟨a, rest, hturns, ha⟩
    · have hnil : scan = [] := by
        rcases hfrom with rfl | hturns
        · exact hscan
        · cases scan with
          | nil => rfl
          | cons w ws => exact absurd hturns (hengine w ws reads rest)
      exact (engineTurn_key reads hturn).trans (by rw [State.onTurn, hnil, keypadAtRead_nil])
    · obtain ⟨_, _, _, _, _, rfl, -, -, hsame, -⟩ := step_agent hturns ha h
      exact hsame fun k ks e => hkey k ks rest (e ▸ hturns)

/-- Settles O32: the two steps agree once the record is set aside, turn by turn. -/
theorem rendererDoesNotInterfere : Obligations.RendererDoesNotInterfere :=
  step_withSeen

/-- Settles O33: what the other agents write is none of the engine's control flow; the host's turn is an equation. -/
theorem otherAgentsDoNotRedirect : Obligations.OtherAgentsDoNotRedirect := by
  refine ⟨fun s t hne hengine h => ?_, fun s rest => step_raiseStop⟩
  obtain ⟨a, rest, hturns⟩ := List.exists_cons_of_ne_nil hne
  have ha : ∀ scan reads, a ≠ .engine scan reads := fun scan reads e => hengine scan reads rest (e ▸ hturns)
  obtain ⟨_, _, _, _, _, rfl, -, -, -, hstop⟩ := step_agent hturns ha h
  exact ⟨by rw [hturns]; rfl, sameExcept_agents s _ _ _ _ _ _, fun hhost => hstop fun e => hhost rest (e ▸ hturns)⟩

/-- Settles O13: the decode miss by the policy, in the plain turn and in one that stands in the list. -/
theorem decodeMissFollowsPolicy : Obligations.DecodeMissFollowsPolicy := by
  refine ⟨fun s op hm hf hd => ?_, fun s op scan reads rest hturn hf hd => ?_⟩
  · rw [step_engine s hm, engineCycle_of_invalid hf op hd]
    exact ⟨fun hp => congrArg _ (decodeMiss_of_fatal op hp), fun hp => congrArg _ (decodeMiss_of_skip op hp)⟩
  · have hland := step_turn_of_invalid hturn hf hd
    exact ⟨fun hp => decodeMiss_of_fatal (s := s.onTurn scan rest) op hp ▸ hland,
      fun hp => decodeMiss_of_skip (s := s.onTurn scan rest) op hp ▸ hland⟩

/-- Settles O26: the tick of each agent. -/
theorem tickStep : Obligations.TickStep := by
  intro s rest hs
  refine ⟨fun h => ?_, fun h => ?_⟩
  · rw [step_delayTick h, hs, ← tick_eq]; rfl
  · rw [step_soundTick h, hs, ← tick_eq]; rfl

/-- Settles O27: a tick of stopped timers keeps the counter. -/
theorem timersStopWithStopped : Obligations.TimersStopWithStopped := by
  intro s rest hrun hreason hturns
  have hs : s.timersStopped = true := decide_eq_true ⟨hrun, hreason⟩
  rcases hturns with h | h
  · rw [step_delayTick h, if_pos hs]
  · rw [step_soundTick h, if_pos hs]

/-- Settles O31: the record of a read; the pixel of a wrapped coordinate is that of the coordinate. -/
theorem rendererReadsAndChangesNothing : Obligations.RendererReadsAndChangesNothing := by
  intro s x y rest _ hturns
  refine ⟨_, step_getPixel hturns, by rw [getPixel_mod], rfl, ?_⟩
  exact (sameExcept_agents s s.dt s.st s.key s.stopReq rest _).of_agree (by simp [Agree])

end Sys2Proof.Machine
